-- ==== Sys2Proof/Word.lean ====
section
/-!
DEFINITION. The word types of the core (spec R7, R8, R21, R25, R26, R62). Every value is unsigned (R8): addition on
these types is BitVec addition, which wraps modulo 2^width; a sum that R8 says is exact is taken on Nat.
-/
namespace Sys2Proof

/-- One byte: a memory cell (R40), a general register (R21), the immediate `kk` (R62). Bit 0 is the least significant
bit, bit 7 the most significant (R7). -/
abbrev Byte := BitVec 8

/-- Sixteen bits: an instruction word (R60), the index register (R25), the instruction pointer (R26). -/
abbrev Word := BitVec 16

/-- The 12-bit address operand `nnn` (R62). -/
abbrev Address12 := BitVec 12

/-- Four bits: the fields `opcode`, `x`, `y` and `n` of a word as they stand in it (R60). -/
abbrev Nibble := BitVec 4

end Sys2Proof
end

