-- ==== Sys2Proof/Syntax.lean ====
section
/-!
DEFINITION. The closed instruction set of the core (spec R3): the five operations, each with the operands its kind
carries and no others (R61). A register index and a count are plain numbers here; their range is WellFormed's check
(R24, R62; log 4).
-/
namespace Sys2Proof

/-- A Decoded Operation: one constructor for each row of spec/opcode_table.json (R61, R65). -/
inductive Instr where
  /-- CLEAR, the word 0x00E0 (R120). -/
  | clear
  /-- SET-INDEX(addr), the words 0xAnnn (R100). -/
  | setIndex (nnn : Address12)
  /-- SET-REGISTER(reg, imm), the words 0x6xkk (R101). -/
  | setRegister (x : Nat) (kk : Byte)
  /-- ADD-IMMEDIATE(reg, imm), the words 0x7xkk (R102). -/
  | addImmediate (x : Nat) (kk : Byte)
  /-- DRAW(regX, regY, rows), the words 0xDxyn (R121). -/
  | draw (x y n : Nat)
  deriving DecidableEq, Repr

end Sys2Proof
end

