-- ==== Sys2Proof/Decode.lean ====
section
/-!
DEFINITION. The decoder (spec R60 to R68), total on every word and on every list of bytes, and after it the encoder,
written from the encodings of R65. Both stand beside the machine-readable rows of R65 (`opcodeRows`).
-/
namespace Sys2Proof

/-! ### Byte order and fields -/

/-- The big-endian word of two fetched bytes, `hi ++ lo`: `hi` gives bits 15:8 (R45, R82). -/
def wordOfBytes (hi lo : Byte) : Word := hi ++ lo

/-- The byte of a word that lies at the lower address: bits 15:8 (R45). -/
def highByte (w : Word) : Byte := w.extractLsb' 8 8

/-- The byte of a word that lies at the higher address: bits 7:0 (R45). -/
def lowByte (w : Word) : Byte := w.extractLsb' 0 8

/-- Bits 15:12, "selecting its operation family" (R60). -/
def opcodeField (w : Word) : Nibble := w.extractLsb' 12 4

/-- Bits 11:8, a register index (R60, R62). -/
def xField (w : Word) : Nat := (w.extractLsb' 8 4).toNat

/-- Bits 7:4, a register index (R60, R62). -/
def yField (w : Word) : Nat := (w.extractLsb' 4 4).toNat

/-- Bits 3:0, a row count (R60, R62). -/
def nField (w : Word) : Nat := (w.extractLsb' 0 4).toNat

/-- Bits 7:0, the immediate byte (R60, R62). -/
def kkField (w : Word) : Byte := w.extractLsb' 0 8

/-- Bits 11:0, the address (R60, R62). -/
def nnnField (w : Word) : Address12 := w.extractLsb' 0 12

/-! ### The decoder -/

/-- The decoder's tagged result: `Decoded(Operation)` or `UnsupportedInstruction(rawWord)` (R67). -/
inductive DecodeResult where
  | decoded (i : Instr)
  | unsupportedInstruction (rawWord : Word)
  deriving DecidableEq, Repr

/-- Dispatch on the top nibble; under 0x0 only the whole word 0x00E0 is an operation (R63). Every other word is
unsupported, by name (R66). A pure function of the word (R67). -/
def decode (w : Word) : DecodeResult :=
  match opcodeField w with
  | 0x0#4 => if w = 0x00E0#16 then .decoded .clear else .unsupportedInstruction w
  | 0x6#4 => .decoded (.setRegister (xField w) (kkField w))
  | 0x7#4 => .decoded (.addImmediate (xField w) (kkField w))
  | 0xA#4 => .decoded (.setIndex (nnnField w))
  | 0xD#4 => .decoded (.draw (xField w) (yField w) (nField w))
  | _ => .unsupportedInstruction w

/-- Why a list of bytes is no instruction. -/
inductive DecodeError where
  /-- Fewer than the two bytes every instruction has (R68). -/
  | truncated
  /-- The first two bytes are an unsupported word (R66). -/
  | unsupported (rawWord : Word)
  deriving DecidableEq, Repr

/-- The instruction that a list of bytes begins with, and the bytes after it: always two bytes long, the first the high
one (R45, R68). -/
def decodeBytes : List Byte → Except DecodeError (Instr × List Byte)
  | hi :: lo :: rest =>
    match decode (wordOfBytes hi lo) with
    | .decoded i => .ok (i, rest)
    | .unsupportedInstruction w => .error (.unsupported w)
  | _ => .error .truncated

/-- The bits of an opcode-table word as the 16-bit word they stand for: the table's bit 0 is the least significant bit
of the word, and bits at or above `nbits` are 0. -/
def tableWord (nbits w : Nat) : Word := BitVec.ofNat 16 (w % 2 ^ nbits)

/-- What the decoder reads from an instruction whose bits, numbered as spec/opcode_table.json numbers them, are `w`: the
word is laid out in memory order (high byte first, R45) and given to `decodeBytes`. -/
def decodeTableWord (nbits w : Nat) : Option Instr :=
  match decodeBytes [highByte (tableWord nbits w), lowByte (tableWord nbits w)] with
  | .ok (i, _) => some i
  | .error _ => none

/-! ### The encoding table and the encoder -/

/-- A row of R65: `w` selects the operation when `w &&& mask = bits`. -/
structure OpcodeRow where
  mnemonic : String
  bits : Word
  mask : Word
  deriving DecidableEq, Repr

/-- The five rows of R65, in the order of spec/opcode_table.json. -/
def opcodeRows : List OpcodeRow :=
  [⟨"CLEAR", 0x00E0#16, 0xFFFF#16⟩,
   ⟨"SET-INDEX", 0xA000#16, 0xF000#16⟩,
   ⟨"SET-REGISTER", 0x6000#16, 0xF000#16⟩,
   ⟨"ADD-IMMEDIATE", 0x7000#16, 0xF000#16⟩,
   ⟨"DRAW", 0xD000#16, 0xF000#16⟩]

/-- Whether a word is one that a row stands for (R65). -/
def OpcodeRow.selects (r : OpcodeRow) (w : Word) : Bool := decide (w &&& r.mask = r.bits)

/-- The mnemonic of an operation (R65, R69). -/
def Instr.mnemonic : Instr → String
  | .clear => "CLEAR"
  | .setIndex _ => "SET-INDEX"
  | .setRegister _ _ => "SET-REGISTER"
  | .addImmediate _ _ => "ADD-IMMEDIATE"
  | .draw _ _ _ => "DRAW"

/-- A register index in the word's `x` field, bits 11:8. -/
def placeX (x : Nat) : Word := (BitVec.ofNat 4 x).setWidth 16 <<< 8

/-- A register index in the word's `y` field, bits 7:4. -/
def placeY (y : Nat) : Word := (BitVec.ofNat 4 y).setWidth 16 <<< 4

/-- A count in the word's `n` field, bits 3:0. -/
def placeN (n : Nat) : Word := (BitVec.ofNat 4 n).setWidth 16

/-- An immediate in the word's `kk` field, bits 7:0. -/
def placeKK (kk : Byte) : Word := kk.setWidth 16

/-- An address in the word's `nnn` field, bits 11:0. -/
def placeNNN (nnn : Address12) : Word := nnn.setWidth 16

/-- The word of an instruction, by the patterns of R65. Each field keeps its own bits, so on an ill-formed instruction
the operands are cut to their fields. -/
def encode : Instr → Word
  | .clear => 0x00E0#16
  | .setIndex nnn => 0xA000#16 ||| placeNNN nnn
  | .setRegister x kk => 0x6000#16 ||| placeX x ||| placeKK kk
  | .addImmediate x kk => 0x7000#16 ||| placeX x ||| placeKK kk
  | .draw x y n => 0xD000#16 ||| placeX x ||| placeY y ||| placeN n

/-- The two bytes of an instruction in memory order, the high one first (R45). -/
def encodeBytes (i : Instr) : List Byte := [highByte (encode i), lowByte (encode i)]

end Sys2Proof
end

