-- ==== Sys2Proof/Config.lean ====
section
/-!
DEFINITION. The implementation parameters of spec R6, each a named constant: the stated values are normative and their
literals are unaudited (D21, log 6). `STOP` and `IMAGE`, which the host supplies, are no constants: `STOP` is the field
`stop` of State (log 2), `IMAGE` an argument of `launch` (log 3). The spec leaves no result open (R168), so there is no
free value and nothing opaque here.
-/
namespace Sys2Proof.Config

/-- `MEM_SIZE`: the memory has 4095 bytes, at addresses 0 to 4094 (R6, R40). -/
abbrev memSize : Nat := 4095

/-- `FONT_LIMIT`: a read below it fails as the unimplemented font region (R6, R41). -/
abbrev fontLimit : Nat := 80

/-- `PROGRAM_ORIGIN`: where the image is loaded and where the instruction pointer starts (R6, R26). -/
abbrev programOrigin : Nat := 0x200

/-- `NUM_REGS`: the general registers, indices 0 to 15 (R6, R21). -/
abbrev numRegs : Nat := 16

/-- `REG_WIDTH`: the width of a general register; `Byte` has it (R6). -/
abbrev regWidth : Nat := 8

/-- `INDEX_WIDTH`: the width of the index register; `Word` has it (R6). -/
abbrev indexWidth : Nat := 16

/-- `IP_WIDTH`: the width of the instruction pointer; `Word` has it (R6). -/
abbrev ipWidth : Nat := 16

/-- `INSTR_BYTES`: every instruction is two bytes long (R6, R68). -/
abbrev instrBytes : Nat := 2

/-- `WIDTH`: the columns of the pixel buffer (R6, R30). -/
abbrev width : Nat := 64

/-- `HEIGHT`: the rows of the pixel buffer (R6, R30). -/
abbrev height : Nat := 32

/-- `SPRITE_WIDTH`: the pixels of one sprite row, one for each bit of its byte (R6, R123). -/
abbrev spriteWidth : Nat := 8

/-- `MAX_IMAGE` = `MEM_SIZE` - `PROGRAM_ORIGIN`: the longest image that fits, 3583 bytes (R6, R56). -/
abbrev maxImage : Nat := memSize - programOrigin

/-- The counts `n` that a word can hold, which gives them four bits, are below this (R60, R62). -/
abbrev countLimit : Nat := 16

end Sys2Proof.Config
end

