-- ==== Sys2Proof/Machine/State.lean ====
section
/-!
DEFINITION. The state of the core (spec R20): the general registers, the index register, the instruction pointer, the
pixel buffer, the status and the memory, with the host's stop predicate beside them as data (log 2); the causes a status
can record (R140, R142); why a step can have no next state; and the state after reset (R32).
-/
namespace Sys2Proof.Machine

/-- A fault's kind with the information recorded with it (R140, R142). `Cause.code` gives R140's codes 1 to 6. -/
inductive Cause where
  /-- Code 1: the decoder matched no row; records the raw word. -/
  | unsupportedInstruction (word : Word)
  /-- Code 2: a read at an address below 80; records the address. -/
  | fontRegionRead (addr : Nat)
  /-- Code 3: a read at 80 <= address < 0x200; records the address. -/
  | reservedInterpreterRead (addr : Nat)
  /-- Code 4: a register index outside [0, 15]; records the index. No decoded instruction raises it (R24, log 4). -/
  | registerIndexOutOfRange (i : Nat)
  /-- Code 5: a toggle outside the grid; records the coordinate pair. -/
  | outOfBoundsDraw (x y : Nat)
  /-- Code 6: a read at an address >= 4095; records the address. -/
  | memoryOutOfRange (addr : Nat)
  deriving DecidableEq, Repr

/-- The sequencer's status (R29): not addressable, changed only by the sequencer and only away from `running`. -/
inductive Status where
  /-- The reset value: steps are taken. -/
  | running
  /-- The host's stop predicate held at an instruction boundary (R81). Terminal (R88). -/
  | stopped
  /-- A fatal condition occurred (R143). Terminal (R88). -/
  | faulted (c : Cause)
  deriving DecidableEq, Repr

/-- The host's stop predicate `STOP` (R81), "a predicate over the state", as plain data: the tests a host can make on
one piece of the state, closed under negation, conjunction and disjunction. The machine has finitely many contents, so
every predicate over them is one of these (`StopCondition.expressible` in Laws; log 2). -/
inductive StopCondition where
  /-- Holds in no state. -/
  | never
  /-- The instruction pointer is at `a`: the document's own example, "instruction pointer reached a known address". -/
  | pcIs (a : Word)
  /-- The index register holds `a`. -/
  | indexIs (a : Word)
  /-- General register `i` holds `b`. -/
  | regIs (i : Fin Config.numRegs) (b : Byte)
  /-- The pixel at column `x` and row `y` is on. -/
  | pixelOn (x : Fin Config.width) (y : Fin Config.height)
  /-- The memory byte at `a` is `b`; the host looks at the array, not through the core's read port. -/
  | byteIs (a : Nat) (b : Byte)
  /-- `c` does not hold. -/
  | neg (c : StopCondition)
  /-- `c` and `d` hold. -/
  | both (c d : StopCondition)
  /-- `c` or `d` holds. -/
  | either (c d : StopCondition)
  deriving DecidableEq, Repr

/-- The memory (R40) as the list of its bytes that differ from what an unlisted address reads as, addresses strictly
rising (`Memory.wf` in Ops.lean; log 5). -/
abbrev Memory := List Host.Cell

/-- The pixel buffer (R30): row-major, 32 rows of 64 pixels, true for on. -/
abbrev PixelBuffer := Vector (Vector Bool Config.width) Config.height

/-- The architectural state of R20, and the host's stop predicate. -/
structure State where
  /-- `V[0..15]`, the general registers (R21). -/
  v : Vector Byte Config.numRegs
  /-- `I`, the index register (R25). -/
  index : Word
  /-- `pc`, the instruction pointer (R26). -/
  pc : Word
  /-- `PB`, the pixel buffer (R30). -/
  pixels : PixelBuffer
  /-- `status` (R29). -/
  status : Status
  /-- The memory the core is connected to (R20, R40). -/
  mem : Memory
  /-- `STOP`, which the host fixes before the first step (R81, R164). THE MODEL'S OWN FIELD (log 2). -/
  stop : StopCondition
  deriving DecidableEq, Repr

/-- What the effect of an instruction comes to: it is done, or a fault was raised in the state reached so far, whose
earlier writes remain (R9, R143). -/
inductive Effect where
  | done (s : State)
  | raised (c : Cause) (s : State)
  deriving DecidableEq, Repr

/-- Why a step has no next state: "No step is defined from either one" of the two terminal statuses (R88). A fault of
the core itself is NO such stop: it is a next state whose status is `Status.faulted` (R143; log 1). -/
inductive Fault where
  /-- Raised by `step` alone, in a state whose status is Stopped (R88). Safe: the run has ended, nothing goes on. -/
  | stepFromStopped
  /-- Raised by `step` alone, in a state whose status is Faulted(c) (R88). Safe: the run has ended, nothing goes on. -/
  | stepFromFaulted (c : Cause)
  deriving DecidableEq, Repr

/-- Why a step has no meaning. -/
inductive Refusal where
  /-- An arm of exec whose instruction has no meaning yet; no arm answers so now. Safe: the model stops. -/
  | notModelled (mnemonic : String)
  deriving DecidableEq, Repr

/-- The machine right after reset, before the host loads an image (R32, R160 steps 1 and 2): every register 0, the
instruction pointer at 0x200, every pixel off, Running, memory zero-filled. `stop` is the host's to fix; until it does,
`never` stands there (DESIGN CHOICE, log 2). -/
def State.reset : State where
  v := Vector.replicate Config.numRegs 0#8
  index := 0#16
  pc := BitVec.ofNat 16 Config.programOrigin
  pixels := Vector.replicate Config.height (Vector.replicate Config.width false)
  status := .running
  mem := []
  stop := .never

end Sys2Proof.Machine
end

