-- ==== Sys2Proof/Machine/Ops.lean ====
section
/-!
DEFINITION. The named operations over the state that the instructions and the step share: memory and its two ports
(spec R40 to R43), the register file (R21, R24), the pixel-buffer write controller (R124), the stop predicate (R81), the
two fetch reads (R82), fault entry (R143) and the advance (R85). There is no return from a fault (R144).
-/
namespace Sys2Proof.Machine

/-! ### Memory -/

/-- What an address the list does not name reads as: memory is "allocated zero-filled at process start" (R40). -/
def Memory.unlistedByte : Byte := 0#8

/-- The byte of the array at an address. -/
def Memory.read : Memory → Nat → Byte
  | [], _ => unlistedByte
  | (b, u) :: rest, a => if a = b then u else Memory.read rest a

/-- The memory with the byte at `a` set to `v`, in canonical form: a byte that an unlisted address reads as anyway is not
listed. -/
def Memory.write : Memory → Nat → Byte → Memory
  | [], a, v => if v = unlistedByte then [] else [(a, v)]
  | (b, u) :: rest, a, v =>
    if a < b then (if v = unlistedByte then (b, u) :: rest else (a, v) :: (b, u) :: rest)
    else if a = b then (if v = unlistedByte then rest else (a, v) :: rest)
    else (b, u) :: Memory.write rest a v

/-- The canonical form: addresses strictly rising, each one an address of the memory (R40), and no entry that an unlisted
address reads as. -/
abbrev Memory.wf (m : Memory) : Prop :=
  m.Pairwise (fun c d => c.1 < d.1) ∧ ∀ c ∈ m, c.1 < Config.memSize ∧ c.2 ≠ unlistedByte

/-- The read port `MemRead(addr, 1)` with its access policy (R41): the font region, the interpreter region and everything
at or beyond `MEM_SIZE` (D3) raise a fault; otherwise the stored byte. It changes no state (R42). -/
def memRead (a : Nat) (s : State) : Except Cause Byte :=
  if a < Config.fontLimit then .error (.fontRegionRead a)
  else if a < Config.programOrigin then .error (.reservedInterpreterRead a)
  else if Config.memSize ≤ a then .error (.memoryOutOfRange a)
  else .ok (s.mem.read a)

/-- The write port `MemWrite(addr, 1, v)` (R43), for the host's loader only: an unchecked store below `MEM_SIZE`, region
checks and all left out; at or beyond it there is no defined target and the host's launch is refused (D16). -/
def memWrite (a : Nat) (v : Byte) (s : State) : Option State :=
  if a < Config.memSize then some { s with mem := s.mem.write a v } else none

/-! ### Sequencing effects -/

/-- What follows an effect that is done; a fault ends the step at once and no later statement runs (R9, R125). -/
def Effect.andThen (e : Effect) (f : State → Effect) : Effect :=
  match e with
  | .done s => f s
  | .raised c s => .raised c s

/-- An effect that needs a value a port gives: where the port raises a fault, so does the effect. -/
def need {α : Type} (r : Except Cause α) (s : State) (f : α → Effect) : Effect :=
  match r with
  | .ok a => f a
  | .error c => .raised c s

/-- "for r in [...]": the effects of a list of indices one after another (R9). -/
def forEach (xs : List Nat) (f : Nat → State → Effect) (s : State) : Effect :=
  match xs with
  | [] => .done s
  | x :: rest => (f x s).andThen (forEach rest f)

/-! ### Registers -/

/-- A register read, which requires an index in [0, 15] (R24). -/
def readReg (i : Nat) (s : State) : Except Cause Byte :=
  if h : i < Config.numRegs then .ok s.v[i] else .error (.registerIndexOutOfRange i)

/-- A register write, which requires an index in [0, 15] (R24). Register 15 is like any other (R22). -/
def writeReg (i : Nat) (b : Byte) (s : State) : Effect :=
  if h : i < Config.numRegs then .done { s with v := s.v.set i b } else .raised (.registerIndexOutOfRange i) s

/-- A write of the index register (R25). -/
def writeIndex (a : Word) (s : State) : State := { s with index := a }

/-! ### The pixel buffer -/

/-- The coordinate check of the write controller, made on each coordinate (R124, C2). -/
abbrev InGrid (x y : Nat) : Prop := x < Config.width ∧ y < Config.height

/-- The pixel at column `x` and row `y`, where there is one (R30). -/
def PixelBuffer.pixel (pb : PixelBuffer) (x y : Nat) : Option Bool :=
  if h : InGrid x y then some ((pb[y]'h.2)[x]'h.1) else none

/-- The linear, row-major index of a pixel (R9, R30). -/
def linearIndex (x y : Nat) : Nat := y * Config.width + x

/-- `toggle(X, Y)` of the write controller: XOR with true inside the grid, OUT_OF_BOUNDS_DRAW outside it (R124). The
coordinates are exact (R8, D7). -/
def toggle (x y : Nat) (s : State) : Effect :=
  if h : InGrid x y then
    .done { s with pixels := s.pixels.set y ((s.pixels[y]'h.2).set x (xor ((s.pixels[y]'h.2)[x]'h.1) true) h.1) h.2 }
  else .raised (.outOfBoundsDraw x y) s

/-! ### The sequencer -/

/-- R140's code of a fault's kind (D9: labels only). -/
def Cause.code : Cause → Nat
  | .unsupportedInstruction _ => 1
  | .fontRegionRead _ => 2
  | .reservedInterpreterRead _ => 3
  | .registerIndexOutOfRange _ => 4
  | .outOfBoundsDraw _ _ => 5
  | .memoryOutOfRange _ => 6

/-- Fault entry (R143): the status records the kind and its information; the instruction pointer is not advanced; nothing
is saved, no mode changes, control goes nowhere; earlier writes of the step remain. -/
def takeFault (c : Cause) (s : State) : State := { s with status := .faulted c }

/-- The stop of a run at an instruction boundary: the status alone changes (R81). -/
def takeStop (s : State) : State := { s with status := .stopped }

/-- `pc <- (pc + 2) mod 2^16` (R85). -/
def advance (s : State) : State := { s with pc := s.pc + BitVec.ofNat 16 Config.instrBytes }

/-- The end of an execute step: the advance where it finished without a fault (R85), fault entry where it did not
(R143). -/
def finish : Effect → Host.Outcome State Fault Refusal
  | .done s => .next (advance s)
  | .raised c s => .next (takeFault c s)

/-- Whether the host's stop predicate holds of a state (R81). -/
def StopCondition.holds : StopCondition → State → Bool
  | .never, _ => false
  | .pcIs a, s => decide (s.pc = a)
  | .indexIs a, s => decide (s.index = a)
  | .regIs i b, s => decide (s.v[i] = b)
  | .pixelOn x y, s => s.pixels[y][x]
  | .byteIs a b, s => decide (s.mem.read a = b)
  | .neg c, s => !c.holds s
  | .both c d, s => c.holds s && d.holds s
  | .either c d, s => c.holds s || d.holds s

/-- The fetch unit (R82): the byte at `pc`, then the byte at `pc + 1` computed as an exact natural, the first in bits
15:8 (R45). No alignment check (R46). -/
def fetchWord (s : State) : Except Cause Word :=
  match memRead s.pc.toNat s with
  | .error c => .error c
  | .ok hi =>
    match memRead (s.pc.toNat + 1) s with
    | .error c => .error c
    | .ok lo => .ok (wordOfBytes hi lo)

end Sys2Proof.Machine
end

