-- ==== Sys2Proof/Machine/Operands.lean ====
section
/-!
DEFINITION. The operand forms of the core (spec R62): a register index, which names `V[x]` (`readReg`, `writeReg` of
Ops.lean), an 8-bit immediate, a 12-bit absolute address, and a 4-bit row count with the address and coordinate sums
DRAW makes of it (R122, R123). Sums are exact naturals (R8, R103).
-/
namespace Sys2Proof.Machine

/-- `zext_16(nnn)`: the 12-bit address as the index register receives it; bits 15:12 become 0 (R62, R100). -/
def addressOperand (nnn : Address12) : Word := nnn.zeroExtend 16

/-- `kk`, taken as it stands: no extension, scaling or shift (R62). -/
def immediateOperand (kk : Byte) : Byte := kk

/-- The rows [0, n) of a sprite, ascending (R121, D20). -/
def rowsOperand (n : Nat) : List Nat := List.range n

/-- The columns [0, 8) of a sprite row, ascending (R121, D20). -/
def spriteColumns : List Nat := List.range Config.spriteWidth

/-- The address `I + r` of sprite row `r`, exact (R122). -/
def spriteAddress (s : State) (r : Nat) : Nat := s.index.toNat + r

/-- Sprite bit `b[7 - c]`, which controls column `c`: the most significant bit is the leftmost pixel (R123). -/
def spriteBit (b : Byte) (c : Nat) : Bool := b.getLsbD (Config.spriteWidth - 1 - c)

/-- A register's byte as an origin coordinate (R121). -/
def originOperand (b : Byte) : Nat := b.toNat

/-- The coordinate of offset `d` from an origin, exact: no 8-bit wrap (R124, D7). -/
def coordinate (origin d : Nat) : Nat := origin + d

end Sys2Proof.Machine
end

