-- ==== Sys2Proof/Machine/PixelOps.lean ====
section
/-!
DEFINITION. The pixel-buffer operations (spec 42_pixel_ops.md): CLEAR and DRAW. DRAW drives the write controller `toggle`
row by row and, in a row, column by column (R121, R125); no collision indicator exists and VF is not written (R127).
-/
namespace Sys2Proof.Machine

/-- CLEAR: a no-op in this hardware, but for the shared advance; it turns no pixel off (R120, C3, D14). -/
def execClear (s : State) : Host.Outcome State Fault Refusal :=
  finish (.done s)

/-- Column `c` of a sprite row whose byte is `b`: a toggle where the bit is set, and no bounds check where it is not
(R121, R124). -/
def drawColumn (b : Byte) (originX y : Nat) (c : Nat) (s : State) : Effect :=
  if spriteBit b c then toggle (coordinate originX c) y s else .done s

/-- Row `r` of a sprite: the byte is read through the read port first (R122, D4), then its eight columns are handled. -/
def drawRow (originX originY : Nat) (r : Nat) (s : State) : Effect :=
  need (memRead (spriteAddress s r) s) s fun b =>
    forEach spriteColumns (drawColumn b originX (coordinate originY r)) s

/-- The rows of a sprite with its top-left corner at an origin (R121). -/
def drawSprite (originX originY n : Nat) (s : State) : Effect :=
  forEach (rowsOperand n) (drawRow originX originY) s

/-- DRAW: both origins are read before any toggle, then the rows are drawn (R121). -/
def execDraw (x y n : Nat) (s : State) : Host.Outcome State Fault Refusal :=
  finish (need (readReg x s) s fun bX => need (readReg y s) s fun bY =>
    drawSprite (originOperand bX) (originOperand bY) n s)

end Sys2Proof.Machine
end

