-- ==== Sys2Proof/Machine/Flags.lean ====
section
/-!
DEFINITION. The ALU's functions (spec R103, R104) and the flags they write: NONE. The core has no flags, no condition
codes, no carry register and no overflow register (R28), so each function gives a result and nothing else.
-/
namespace Sys2Proof.Machine

/-- ALU "load": the operand itself (R101, R104). No flag. -/
def aluLoad (b : Byte) : Byte := b

/-- ALU "increment": the sum modulo 256 of a register's byte and an immediate (R102, C1). The wrap is "defined behavior,
not an error, and no overflow flag is set". -/
def aluIncrement (a b : Byte) : Byte := a + b

end Sys2Proof.Machine
end

