-- ==== Sys2Proof/Machine/RegisterOps.lean ====
section
/-!
DEFINITION. The register operations (spec 41_register_ops.md): SET-INDEX, SET-REGISTER, ADD-IMMEDIATE. None writes a
flag, reads memory or faults in its execute step on an index that decoding gives (R24).
-/
namespace Sys2Proof.Machine

/-- SET-INDEX: `I <- zext_16(nnn)`, with no check of the address (R100). -/
def execSetIndex (nnn : Address12) (s : State) : Host.Outcome State Fault Refusal :=
  finish (.done (writeIndex (addressOperand nnn) s))

/-- SET-REGISTER: `V[x] <- kk` (R101). -/
def execSetRegister (x : Nat) (kk : Byte) (s : State) : Host.Outcome State Fault Refusal :=
  finish (writeReg x (aluLoad (immediateOperand kk)) s)

/-- ADD-IMMEDIATE: `V[x] <- (V[x] + kk) mod 256`, the register read before it is written (R102). -/
def execAddImmediate (x : Nat) (kk : Byte) (s : State) : Host.Outcome State Fault Refusal :=
  finish (need (readReg x s) s fun a => writeReg x (aluIncrement a (immediateOperand kk)) s)

end Sys2Proof.Machine
end

