-- ==== Sys2Proof/Machine/Dispatch.lean ====
section
/-! DEFINITION. The execute step (spec R84): one arm for each operation, each one call of its meaning. -/
namespace Sys2Proof.Machine

def exec (i : Instr) (s : State) : Host.Outcome State Fault Refusal :=
  match i with
  | .clear => Sys2Proof.Machine.execClear s
  | .setIndex nnn => Sys2Proof.Machine.execSetIndex nnn s
  | .setRegister x kk => Sys2Proof.Machine.execSetRegister x kk s
  | .addImmediate x kk => Sys2Proof.Machine.execAddImmediate x kk s
  | .draw x y n => Sys2Proof.Machine.execDraw x y n s

end Sys2Proof.Machine
end

