-- ==== Sys2Proof/Machine/Cycle.lean ====
section
/-!
DEFINITION. The instruction cycle of a running core (spec R80): stop check, fetch, decode, execute, in that order, which
is also the priority of the conditions that can arise in one step (R145).
-/
namespace Sys2Proof.Machine

/-- The decode step and the execute step: an unsupported word is a fault that changes nothing else (R83), a Decoded
Operation goes to its rule (R84). -/
def runWord (w : Word) (s : State) : Host.Outcome State Fault Refusal :=
  match decode w with
  | .unsupportedInstruction raw => .next (takeFault (.unsupportedInstruction raw) s)
  | .decoded i => exec i s

/-- Fetch, then decode and execute: a fetch that faults ends the step (R82). -/
def fetchAndRun (s : State) : Host.Outcome State Fault Refusal :=
  match fetchWord s with
  | .error c => .next (takeFault c s)
  | .ok w => runWord w s

/-- One step from status Running: the stop check comes before the fetch, and a stopped step fetches nothing (R80, R81). -/
def cycle (s : State) : Host.Outcome State Fault Refusal :=
  if s.stop.holds s then .next (takeStop s) else fetchAndRun s

end Sys2Proof.Machine
end

