-- ==== Sys2Proof/Machine/HostInterface.lean ====
section
/-!
DEFINITION. What the host does before a run and reads after one (spec R56, R160 to R164, R93, R94). During a run the host
does nothing (R164, D17; log 10), so nothing here is part of a step.
-/
namespace Sys2Proof.Machine

/-- The loader's byte writes from address `a` up, one for each byte of the image (R56). -/
def loadBytes : Nat → List Byte → State → Option State
  | _, [], s => some s
  | a, b :: rest, s => (memWrite a b s).bind (loadBytes (a + 1) rest)

/-- The image load: an image of at most `MAX_IMAGE` bytes is placed from 0x200; a longer one is a host error and no run
starts (R56, D16). -/
def loadImage (image : List Byte) (s : State) : Option State :=
  if image.length ≤ Config.maxImage then loadBytes Config.programOrigin image s else none

/-- The host fixes its stop predicate (R160 step 4). -/
def supplyStop (stop : StopCondition) (s : State) : State := { s with stop := stop }

/-- The state from which the steps of a run begin: reset, then the image, then the stop predicate (R160). -/
def launch (image : List Byte) (stop : StopCondition) : Option State :=
  (loadImage image State.reset).map (supplyStop stop)

/-- The row-major list of a buffer's pixels: pixel (x, y) stands at `linearIndex x y` (R30, R93). -/
def PixelBuffer.rowMajor (pb : PixelBuffer) : List Bool := (pb.toList.map Vector.toList).flatten

/-- The output of a run: the final pixel buffer of a run that ended Stopped (R93). A Faulted run has no output (R94), and a
running one has none yet. -/
def State.output (s : State) : Option (List Bool) :=
  match s.status with
  | .stopped => some s.pixels.rowMajor
  | .running => none
  | .faulted _ => none

/-- What a host observes of a run that ended Faulted: the kind with its information (R142, R152, R164). -/
def State.observedFault (s : State) : Option Cause :=
  match s.status with
  | .faulted c => some c
  | .running => none
  | .stopped => none

/-- A byte placed for the fetch; an address the memory does not have takes none. -/
def placeByte (a : Nat) (v : Byte) (s : State) : State := (memWrite a v s).getD s

/-- A word placed where the next step fetches it, in memory order (R45), with all the fetch needs: the status Running, and a
stop predicate that does not hold there (log 3). -/
def placeWord (w : Word) (s : State) : State :=
  let placed := placeByte (s.pc.toNat + 1) (lowByte w) (placeByte s.pc.toNat (highByte w) { s with status := .running })
  if placed.stop.holds placed then { placed with stop := .never } else placed

end Sys2Proof.Machine
end

