-- ==== Sys2Proof/Machine/Step.lean ====
section
/-! DEFINITION. One step of the core (spec R80, R88), and the placing of a word for it to fetch (log 3). -/
namespace Sys2Proof.Machine

/-- One step: defined only when the status is Running; Stopped and Faulted are terminal (R80, R88). -/
def step (s : State) : Host.Outcome State Fault Refusal :=
  match s.status with
  | .running => cycle s
  | .stopped => .fault .stepFromStopped
  | .faulted c => .fault (.stepFromFaulted c)

/-- The state with an instruction, whose bits are numbered as spec/opcode_table.json numbers them, stored where `step`
fetches its next instruction. -/
def State.withFetchWord (s : State) (nbits w : Nat) : State := placeWord (tableWord nbits w) s

end Sys2Proof.Machine
end

