-- ==== Sys2Proof/WellFormed.lean ====
section
/-!
DEFINITION. Which terms of Instr are instructions: those whose operands fit the fields they come from (spec R24, R62).
-/
namespace Sys2Proof

/-- A register index is in [0, 15] (R24, R62). -/
def regIndexOk (x : Nat) : Bool := decide (x < Config.numRegs)

/-- A row count is in [0, 15] (R62). -/
def countOk (n : Nat) : Bool := decide (n < Config.countLimit)

/-- Every operand is in the range its field of the word can hold (R62). `nnn` and `kk` fit by their types. -/
def Instr.wf : Instr → Bool
  | .clear => true
  | .setIndex _ => true
  | .setRegister x _ => regIndexOk x
  | .addImmediate x _ => regIndexOk x
  | .draw x y n => regIndexOk x && regIndexOk y && countOk n

end Sys2Proof
end

