-- ==== Sys2Proof/Safety.lean ====
section
/-!
DEFINITION. What claims about runs are stated in: a run of k steps, the runs that end without a fault (spec R88, R94, R163),
the invariant of every run (R25, R27, R40, R91, R142), and when a sprite can be drawn without a fault (R122, R124).
-/
namespace Sys2Proof.Machine

/-! ### Runs -/

/-- `k` steps lead from `s` to `t`, each one to a next state (R87). -/
inductive Steps : Nat → State → State → Prop where
  | none (s : State) : Steps 0 s s
  | more {k : Nat} {s u t : State} (first : step s = .next u) (later : Steps k u t) : Steps (k + 1) s t

/-- `t` is reached from `s` in some number of steps. -/
def Reaches (s t : State) : Prop := ∃ k, Steps k s t

/-- The premise `no_fault` of R163: the status is not Faulted. -/
def State.NoFault (s : State) : Prop := ∀ c, s.status ≠ .faulted c

/-- No step is defined from the state: its status is Stopped or Faulted (R88). -/
def State.Terminal (s : State) : Prop := s.status ≠ .running

/-- The premise `image_loaded(IMAGE)` of R163: an image that fits stands from 0x200, and every other byte is 0. -/
def ImageLoaded (image : List Byte) (s : State) : Prop :=
  image.length ≤ Config.maxImage ∧
  (∀ k (h : k < image.length), s.mem.read (Config.programOrigin + k) = image[k]) ∧
  ∀ a, a < Config.programOrigin ∨ Config.programOrigin + image.length ≤ a → s.mem.read a = 0#8

/-- A safe run: from `s` on, no fault is ever taken. -/
def SafeFrom (s : State) : Prop := ∀ t, Reaches s t → t.NoFault

/-- A run that has an output: it ends Stopped (R93, R94). -/
def EndsStopped (s : State) : Prop := ∃ t, Reaches s t ∧ t.status = .stopped

/-! ### The invariant of a run -/

/-- The causes a run can record, with the information each can carry (R41, R49, R66, R124, R142). No run records a
register index (R24). -/
def Cause.Possible : Cause → Prop
  | .unsupportedInstruction w => decode w = .unsupportedInstruction w
  | .fontRegionRead a => a < Config.fontLimit
  | .reservedInterpreterRead a => Config.fontLimit ≤ a ∧ a < Config.programOrigin
  | .registerIndexOutOfRange _ => False
  | .outOfBoundsDraw x y => ¬ InGrid x y ∧ x ≤ 262 ∧ y ≤ 269
  | .memoryOutOfRange a => Config.memSize ≤ a ∧ a ≤ 0x100D

/-- What holds of every state a run reaches: memory is in canonical form; the instruction pointer is even and lies in the
program region (R27, R91); the index register holds a 12-bit address (R25); a recorded fault is one a run can raise. -/
structure State.Inv (s : State) : Prop where
  mem_wf : s.mem.wf
  pc_even : s.pc.toNat % 2 = 0
  pc_ge : Config.programOrigin ≤ s.pc.toNat
  pc_lt : s.pc.toNat < Config.memSize
  index_le : s.index.toNat ≤ 0x0FFF
  fault_possible : ∀ c, s.status = .faulted c → c.Possible

/-! ### Sprites -/

/-- The byte of sprite row `r` as it stands in memory (R122). -/
def spriteByte (s : State) (r : Nat) : Byte := s.mem.read (spriteAddress s r)

/-- The read of sprite row `r` passes the read policy (R41, R122). -/
def RowReadable (s : State) (r : Nat) : Prop :=
  Config.programOrigin ≤ spriteAddress s r ∧ spriteAddress s r < Config.memSize

/-- Every set bit of sprite row `r`, drawn at an origin, falls in the grid (R124). -/
def RowFits (s : State) (originX originY r : Nat) : Prop :=
  ∀ c, c < Config.spriteWidth → spriteBit (spriteByte s r) c = true → InGrid (originX + c) (originY + r)

/-- Drawing `n` rows at an origin raises no fault (R121). -/
def SpriteSafe (s : State) (originX originY n : Nat) : Prop :=
  ∀ r, r < n → RowReadable s r ∧ RowFits s originX originY r

/-- Whether pixel (X, Y) is in the set S of R126: covered by a set bit of the sprite of `n` rows at an origin. -/
def spriteCovers (s : State) (originX originY n X Y : Nat) : Bool :=
  (List.range n).any fun r => (List.range Config.spriteWidth).any fun c =>
    decide (X = originX + c ∧ Y = originY + r) && spriteBit (spriteByte s r) c

/-! ### What a step runs, and what an instruction names -/

/-- The instruction that the next step of a running state decodes (R80). -/
def State.Fetches (s : State) (i : Instr) : Prop := ∃ w, fetchWord s = .ok w ∧ decode w = .decoded i

end Sys2Proof.Machine

namespace Sys2Proof

/-- The general registers an operation reads or writes (R23). -/
def Instr.names (i : Instr) (k : Nat) : Prop :=
  match i with
  | .clear => False
  | .setIndex _ => False
  | .setRegister x _ => k = x
  | .addImmediate x _ => k = x
  | .draw x y _ => k = x ∨ k = y

end Sys2Proof
end

