-- ==== Sys2Proof/Certificates/Slice0/Obligations.lean ====
section
/-!
DEFINITION. The statements about this model for the provers, one `def Obligations.<Name> : Prop` each; OBLIGATIONS.json
lists them with the rules or sections of spec/ they rest on.
-/
open Sys2Proof Sys2Proof.Machine

/-! ### Encoding -/

/-- One word of each family, written out from R65's patterns, and words outside them (95_test_vectors.md, S5 to S7, S9
and section 2.1). -/
def Obligations.SampleWordsDecodeAsTheSpecSays : Prop :=
  decode 0b0000000011100000#16 = .decoded .clear ∧
  decode 0b1010001000101010#16 = .decoded (.setIndex 0x22A#12) ∧
  decode 0b0110000000001100#16 = .decoded (.setRegister 0 0x0C#8) ∧
  decode 0b0111111100000001#16 = .decoded (.addImmediate 15 0x01#8) ∧
  decode 0b1101000000011111#16 = .decoded (.draw 0 1 15) ∧
  decode 0x00EE#16 = .unsupportedInstruction 0x00EE#16 ∧
  decode 0x1228#16 = .unsupportedInstruction 0x1228#16

/-- R63: dispatch on the top 4 bits, with the one nested case under 0x0; the operands are the fields at their fixed
positions, said here as arithmetic on the word's number. -/
def Obligations.DecodeDispatchesOnTheTopNibble : Prop :=
  ∀ w : Word,
    (w.toNat / 4096 = 0x0 → w.toNat = 0x00E0 → decode w = .decoded .clear) ∧
    (w.toNat / 4096 = 0x0 → w.toNat ≠ 0x00E0 → decode w = .unsupportedInstruction w) ∧
    (w.toNat / 4096 = 0x6 →
      decode w = .decoded (.setRegister (w.toNat / 256 % 16) (BitVec.ofNat 8 (w.toNat % 256)))) ∧
    (w.toNat / 4096 = 0x7 →
      decode w = .decoded (.addImmediate (w.toNat / 256 % 16) (BitVec.ofNat 8 (w.toNat % 256)))) ∧
    (w.toNat / 4096 = 0xA → decode w = .decoded (.setIndex (BitVec.ofNat 12 (w.toNat % 4096)))) ∧
    (w.toNat / 4096 = 0xD →
      decode w = .decoded (.draw (w.toNat / 256 % 16) (w.toNat / 16 % 16) (w.toNat % 16))) ∧
    (w.toNat / 4096 ∉ [0x0, 0x6, 0x7, 0xA, 0xD] → decode w = .unsupportedInstruction w)

/-- R65: a word decodes to the operation of exactly the row whose match and mask select it, and no two rows select one
word (the spec marks the second clause as derived from the table). -/
def Obligations.DecodeAgreesWithTheMatchMaskTable : Prop :=
  (∀ w : Word, ∀ r ∈ opcodeRows,
    (r.selects w = true ↔ ∃ i, decode w = .decoded i ∧ i.mnemonic = r.mnemonic)) ∧
  opcodeRows.Pairwise fun r r' => ∀ w : Word, ¬ (r.selects w = true ∧ r'.selects w = true)

/-- R66: a word that no row selects is unsupported; there is nothing between supported and unsupported; and a running
core that fetches one takes the fault UNSUPPORTED_INSTRUCTION(word) and changes no other state. 0x00EE, 0x0000 and
0x1nnn are such words. -/
def Obligations.UnmatchedWordsAreUnsupportedAndFatal : Prop :=
  (∀ w : Word, (∀ r ∈ opcodeRows, r.selects w = false) ↔ decode w = .unsupportedInstruction w) ∧
  (∀ w : Word, (∃ i, decode w = .decoded i) ∨ decode w = .unsupportedInstruction w) ∧
  (∀ (s : State) (w : Word), s.status = .running → s.stop.holds s = false → fetchWord s = .ok w →
    (∀ r ∈ opcodeRows, r.selects w = false) →
    step s = .next { s with status := .faulted (.unsupportedInstruction w) }) ∧
  (∀ w : Word, w = 0x00EE#16 ∨ w = 0x0000#16 ∨ w.toNat / 4096 = 1 → ∀ r ∈ opcodeRows, r.selects w = false)

/-- No bit of an encoding is dropped: the decoder reads back every well-formed instruction from its word, and from its
two bytes in memory order whatever bytes follow. -/
def Obligations.DecodingInvertsEncoding : Prop :=
  ∀ i : Instr, i.wf = true →
    decode (encode i) = .decoded i ∧
    ∀ rest : List Byte, decodeBytes (encodeBytes i ++ rest) = .ok (i, rest)

/-- Each supported word is the encoding of the one instruction it decodes to, and that instruction is well-formed: every
register index the decoder gives is in [0, 15] (R24). -/
def Obligations.EncodingInvertsDecoding : Prop :=
  ∀ (w : Word) (i : Instr), decode w = .decoded i → i.wf = true ∧ encode i = w

/-- R64's count (derived there): 16385 of the 65536 words are supported. -/
def Obligations.SupportedWordsNumber16385 : Prop :=
  ((Finset.range 65536).filter fun k =>
    decode (BitVec.ofNat 16 k) ≠ .unsupportedInstruction (BitVec.ofNat 16 k)).card = 16385

/-- R68: every instruction is exactly two bytes long; a list of fewer bytes holds none. -/
def Obligations.EveryInstructionIsTwoBytesLong : Prop :=
  (∀ (bs rest : List Byte) (i : Instr), decodeBytes bs = .ok (i, rest) → bs.length = rest.length + 2 ∧ bs.drop 2 = rest) ∧
  (∀ bs : List Byte, decodeBytes bs = .error .truncated ↔ bs.length < 2)

/-! ### Memory and its ports -/

/-- The read port's policy: the font region, the interpreter region and everything from 4095 up fault, the program region
answers the stored byte. The last fault is the spec's own decision (D3, log 7). -/
def Obligations.ReadPortAppliesTheAccessPolicy : Prop :=
  ∀ (s : State) (a : Nat),
    (a < 80 → memRead a s = .error (.fontRegionRead a)) ∧
    (80 ≤ a → a < 0x200 → memRead a s = .error (.reservedInterpreterRead a)) ∧
    (0x200 ≤ a → a < 4095 → memRead a s = .ok (s.mem.read a)) ∧
    (4095 ≤ a → memRead a s = .error (.memoryOutOfRange a))

/-- The write port stores the one byte, in any region below 4095, changes no other byte and nothing else, and keeps the
memory's canonical form; at and beyond 4095 it is refused (the spec's own decision D16, log 10). -/
def Obligations.WritePortStoresExactlyOneByte : Prop :=
  ∀ (s : State) (a : Nat) (v : Byte), s.mem.wf →
    (a < 4095 → ∃ t, memWrite a v s = some t ∧ t.mem.read a = v ∧ (∀ b, b ≠ a → t.mem.read b = s.mem.read b) ∧
      t.mem.wf ∧ t.v = s.v ∧ t.index = s.index ∧ t.pc = s.pc ∧ t.pixels = s.pixels ∧ t.status = s.status ∧
      t.stop = s.stop) ∧
    (4095 ≤ a → memWrite a v s = none)

/-- Two memories in canonical form that read alike at every address are the same data: the model's memory holds the
contents of the array and nothing more (log 5). -/
def Obligations.CanonicalMemoriesThatReadAlikeAreEqual : Prop :=
  ∀ m m' : Memory, m.wf → m'.wf → (∀ a, m.read a = m'.read a) → m = m'

/-! ### The step -/

/-- The fetch is big-endian: the byte at `pc` is the high one, the byte at `pc + 1` the low one, whatever `pc` is, odd or
even. That an odd `pc` is not checked is the spec's own decision (D5, log 7). -/
def Obligations.FetchIsBigEndian : Prop :=
  ∀ s : State, 0x200 ≤ s.pc.toNat → s.pc.toNat + 1 < 4095 →
    ∃ w, fetchWord s = .ok w ∧
      w.toNat = 256 * (s.mem.read s.pc.toNat).toNat + (s.mem.read (s.pc.toNat + 1)).toNat

/-- A fetch whose first read faults ends the step with that fault, and so does one whose first read succeeds and whose
second faults; nothing but the status changes. The order of the reads, and the fault of a read at 4095 or above, are the
spec's own decisions (D5, D3, log 7). -/
def Obligations.FetchFaultChangesOnlyTheStatus : Prop :=
  ∀ (s : State) (c : Cause), s.status = .running → s.stop.holds s = false →
    (memRead s.pc.toNat s = .error c → step s = .next { s with status := .faulted c }) ∧
    (∀ hi, memRead s.pc.toNat s = .ok hi → memRead (s.pc.toNat + 1) s = .error c →
      step s = .next { s with status := .faulted c })

/-- A step runs the decoded instruction: in a running state whose stop predicate does not hold, with two readable bytes at
`pc` whose word decodes to `i`, the step is `exec i`. `exec` itself moves `pc` past the word (R84, R85). -/
def Obligations.StepRunsTheDecodedInstruction : Prop :=
  ∀ (s : State) (hi lo : Byte) (i : Instr), s.status = .running → s.stop.holds s = false →
    memRead s.pc.toNat s = .ok hi → memRead (s.pc.toNat + 1) s = .ok lo →
    decode (wordOfBytes hi lo) = .decoded i → step s = exec i s

/-- A word placed for the fetch is the next instruction run: for every well-formed instruction the state its word is placed
in fetches that word, its step is `exec` of the instruction, and nothing but the word's two bytes, the status, which is
Running, and a stop predicate that held has been changed: the predicate is kept where it does not hold in the state so
placed, and `never` stands in its place where it does (the model's own choice, log 3). -/
def Obligations.APlacedWordIsTheNextInstruction : Prop :=
  ∀ (s : State) (i : Instr), i.wf = true → s.mem.wf → 0x200 ≤ s.pc.toNat → s.pc.toNat + 1 < 4095 →
    let p := s.withFetchWord 16 (encode i).toNat
    fetchWord p = .ok (encode i) ∧ step p = exec i p ∧
      p.v = s.v ∧ p.index = s.index ∧ p.pc = s.pc ∧ p.pixels = s.pixels ∧ p.status = .running ∧
      (s.stop.holds { p with stop := s.stop } = false → p.stop = s.stop) ∧
      (s.stop.holds { p with stop := s.stop } = true → p.stop = .never) ∧
      (∀ a, a ≠ s.pc.toNat → a ≠ s.pc.toNat + 1 → p.mem.read a = s.mem.read a)

/-- R83: an unsupported word raises UNSUPPORTED_INSTRUCTION(word), and no register, no index, no pixel and no `pc`
changes; nor does anything else but the status. -/
def Obligations.UnsupportedWordChangesOnlyTheStatus : Prop :=
  ∀ (s : State) (w : Word), s.status = .running → s.stop.holds s = false → fetchWord s = .ok w →
    decode w = .unsupportedInstruction w →
    ∃ t, step s = .next t ∧ t.status = .faulted (.unsupportedInstruction w) ∧ t.v = s.v ∧ t.index = s.index ∧
      t.pixels = s.pixels ∧ t.pc = s.pc ∧ t.mem = s.mem ∧ t.stop = s.stop

/-- The stop check comes before the fetch: where the predicate holds, the step sets the status Stopped and changes nothing
else, whatever stands at `pc`. That it comes first is the spec's own decision (D10, log 2). -/
def Obligations.StopCheckComesBeforeTheFetch : Prop :=
  ∀ s : State, s.status = .running → s.stop.holds s = true → step s = .next { s with status := .stopped }

/-- R88: no step is defined from Stopped or Faulted, and the status never returns to Running; these two statuses are the
only way a run ends, since from Running there is always a step. -/
def Obligations.StoppedAndFaultedAreTerminal : Prop :=
  (∀ s : State, s.status = .running → ∃ t, step s = .next t) ∧
  (∀ s t : State, (s.status = .stopped ∨ ∃ c, s.status = .faulted c) → step s ≠ .next t) ∧
  (∀ (k : Nat) (s t : State), s.status ≠ .running → Steps k s t → t.status ≠ .running)

/-! ### Register operations -/

/-- R100: SET-INDEX followed by reading the index register returns the address, for every address in [0, 0x0FFF]; the
execute step never faults, and nothing but the index register and the advance changes. -/
def Obligations.SetIndexLoadsTheAddress : Prop :=
  ∀ (nnn : Address12) (s : State),
    decode (BitVec.ofNat 16 (0xA000 + nnn.toNat)) = .decoded (.setIndex nnn) ∧
    ∃ t, exec (.setIndex nnn) s = .next t ∧ t.index.toNat = nnn.toNat ∧ t.pc = s.pc + 2#16 ∧ t.v = s.v ∧
      t.pixels = s.pixels ∧ t.status = s.status ∧ t.stop = s.stop ∧ ∀ a, t.mem.read a = s.mem.read a

/-- R101: SET-REGISTER followed by a read of the register returns the immediate, for every register, V15 like any other;
no other register changes, nothing faults, and nothing else but the advance changes. -/
def Obligations.SetRegisterLoadsTheImmediate : Prop :=
  ∀ (x : Nat) (kk : Byte) (s : State), x < 16 →
    decode (BitVec.ofNat 16 (0x6000 + 256 * x + kk.toNat)) = .decoded (.setRegister x kk) ∧
    ∃ t, exec (.setRegister x kk) s = .next t ∧ readReg x t = .ok kk ∧
      (∀ j, j ≠ x → readReg j t = readReg j s) ∧ t.pc = s.pc + 2#16 ∧ t.index = s.index ∧ t.pixels = s.pixels ∧
      t.status = s.status ∧ t.stop = s.stop ∧ ∀ a, t.mem.read a = s.mem.read a

/-- R102: ADD-IMMEDIATE adds modulo 256; the register is read before it is written; no other register changes (VF only
when it is the one named), nothing faults, and nothing else but the advance changes. -/
def Obligations.AddImmediateAddsModulo256 : Prop :=
  ∀ (x : Nat) (kk old : Byte) (s : State), readReg x s = .ok old →
    decode (BitVec.ofNat 16 (0x7000 + 256 * x + kk.toNat)) = .decoded (.addImmediate x kk) ∧
    ∃ t new, exec (.addImmediate x kk) s = .next t ∧ readReg x t = .ok new ∧
      new.toNat = (old.toNat + kk.toNat) % 256 ∧
      (∀ j, j ≠ x → readReg j t = readReg j s) ∧ t.pc = s.pc + 2#16 ∧ t.index = s.index ∧ t.pixels = s.pixels ∧
      t.status = s.status ∧ t.stop = s.stop ∧ ∀ a, t.mem.read a = s.mem.read a

/-- The wraparound property of 41_register_ops.md: writing `a` to a register and then adding `b` leaves (a + b) mod 256 in
it, the write being visible to the very next instruction. -/
def Obligations.SetThenAddLeavesTheSum : Prop :=
  ∀ (x : Nat) (a b : Byte) (s : State), x < 16 →
    ∃ t u, exec (.setRegister x a) s = .next t ∧ exec (.addImmediate x b) t = .next u ∧
      readReg x u = .ok (BitVec.ofNat 8 ((a.toNat + b.toNat) % 256)) ∧
      (∀ j, j ≠ x → readReg j u = readReg j s) ∧ u.pc = s.pc + 4#16

/-- The register file's contract (10_state.md section 2): an index outside [0, 15] is a fatal breach, and nothing but the
status changes. Instructions with such an index are ill-formed terms that no word decodes to (the model's choice,
log 4). -/
def Obligations.RegisterIndexOutOfRangeIsFatal : Prop :=
  ∀ (x : Nat) (kk : Byte) (s : State), 16 ≤ x →
    exec (.setRegister x kk) s = .next { s with status := .faulted (.registerIndexOutOfRange x) } ∧
    exec (.addImmediate x kk) s = .next { s with status := .faulted (.registerIndexOutOfRange x) } ∧
    (∀ y n, exec (.draw x y n) s = .next { s with status := .faulted (.registerIndexOutOfRange x) }) ∧
    (∀ z n, z < 16 → exec (.draw z x n) s = .next { s with status := .faulted (.registerIndexOutOfRange x) })

/-! ### Pixel operations -/

/-- CLEAR changes nothing but `pc`, on a drawn buffer too; 0x00E0 is its only word. That this hardware keeps the no-op is
recorded as decision D14. -/
def Obligations.ClearIsANoOp : Prop :=
  (∀ w : Word, decode w = .decoded .clear ↔ w = 0x00E0#16) ∧
  ∀ s : State, ∃ t, exec .clear s = .next t ∧ t.pixels = s.pixels ∧ t.v = s.v ∧ t.index = s.index ∧
    t.pc = s.pc + 2#16 ∧ t.status = s.status ∧ t.stop = s.stop ∧ ∀ a, t.mem.read a = s.mem.read a

/-- The write controller: inside the grid a toggle turns exactly the one pixel over and changes nothing else; outside it,
on either coordinate, it raises OUT_OF_BOUNDS_DRAW with the pair and writes nothing (D7, C2, log 8). -/
def Obligations.ToggleTurnsOneGridPixelOver : Prop :=
  ∀ (x y : Nat) (s : State),
    (x < 64 → y < 32 → ∃ t, toggle x y s = .done t ∧ t.pixels.pixel x y = (s.pixels.pixel x y).map (!·) ∧
      (∀ x' y', (x', y') ≠ (x, y) → t.pixels.pixel x' y' = s.pixels.pixel x' y') ∧
      t.v = s.v ∧ t.index = s.index ∧ t.pc = s.pc ∧ t.status = s.status ∧ t.mem = s.mem ∧ t.stop = s.stop) ∧
    (64 ≤ x ∨ 32 ≤ y → toggle x y s = .raised (.outOfBoundsDraw x y) s)

/-- DRAW of 0 rows reads no memory and changes no pixel, whatever the index register and the origins hold
(42_pixel_ops.md section 2). -/
def Obligations.DrawOfNoRowsOnlyAdvances : Prop :=
  ∀ (x y : Nat) (s : State), x < 16 → y < 16 → exec (.draw x y 0) s = .next { s with pc := s.pc + 2#16 }

/-- DRAW completes where every row's byte is readable and every set bit falls in the grid, and then its effect on the
pixel buffer is PB xor S, S the pixels covered by set sprite bits, each toggled at most once (42_pixel_ops.md section 2,
where the spec marks this as derived). Registers, index register, status and memory are unchanged; `pc` advances by 2.
That sprite reads go through the read port is decision D4 (log 7); that coordinates are exact is decision D7 (log 8). -/
def Obligations.DrawXorsTheSpriteOntoTheBuffer : Prop :=
  ∀ (x y n : Nat) (vx vy : Byte) (s : State), readReg x s = .ok vx → readReg y s = .ok vy →
    SpriteSafe s vx.toNat vy.toNat n →
    ∃ t, exec (.draw x y n) s = .next t ∧
      (∀ X Y, t.pixels.pixel X Y = (s.pixels.pixel X Y).map (xor · (spriteCovers s vx.toNat vy.toNat n X Y))) ∧
      t.v = s.v ∧ t.index = s.index ∧ t.pc = s.pc + 2#16 ∧ t.status = s.status ∧ t.stop = s.stop ∧
      ∀ a, t.mem.read a = s.mem.read a

/-- The bit-to-column mapping of 42_pixel_ops.md section 2: in a drawn sprite, bit 7 - c of row r's byte
controls the pixel at column originX + c and row originY + r: that pixel is turned over where the bit is set and kept where
it is not. -/
def Obligations.SpriteBitsControlTheirColumns : Prop :=
  ∀ (x y n r c : Nat) (vx vy : Byte) (s t : State), readReg x s = .ok vx → readReg y s = .ok vy →
    SpriteSafe s vx.toNat vy.toNat n → exec (.draw x y n) s = .next t → r < n → c < 8 →
    t.pixels.pixel (vx.toNat + c) (vy.toNat + r) =
      (s.pixels.pixel (vx.toNat + c) (vy.toNat + r)).map
        (xor · ((s.mem.read (s.index.toNat + r)).getLsbD (7 - c)))

/-- Two DRAWs of the same sprite at the same origin, neither raising a fault, restore the buffer; both complete
(42_pixel_ops.md section 2, where the spec marks this as derived). -/
def Obligations.DrawingTwiceRestoresTheBuffer : Prop :=
  ∀ (x y n : Nat) (s t : State), s.status = .running → exec (.draw x y n) s = .next t → t.status = .running →
    ∃ u, exec (.draw x y n) t = .next u ∧ u.status = .running ∧ u.pixels = s.pixels ∧ u.v = s.v ∧
      u.index = s.index ∧ u.pc = s.pc + 4#16 ∧ u.mem = s.mem

/-- DRAW goes on without a fault exactly where the sprite can be drawn: every row readable, every set bit in the grid. A
clear bit outside the grid is not checked (42_pixel_ops.md section 2; reads by D4 and D3, log 7; coordinates by D7,
log 8). -/
def Obligations.DrawRunsOnExactlyWhenTheSpriteIsSafe : Prop :=
  ∀ (x y n : Nat) (vx vy : Byte) (s : State), s.status = .running → readReg x s = .ok vx → readReg y s = .ok vy →
    ((∃ t, exec (.draw x y n) s = .next t ∧ t.status = .running) ↔ SpriteSafe s vx.toNat vy.toNat n)

/-- The first sprite row whose read faults ends DRAW with that fault: the status records it and `pc` is not advanced. That
an unreadable row makes DRAW fault at all is the spec's own decision D4, and at 4095 and above also D3 (log 7). The order
of rows is decision D20, that all else is kept decision D8 (log 9). Nothing is said of the pixels of a faulted run
(93_implementation_defined.md row 12). -/
def Obligations.DrawTakesTheFirstReadFault : Prop :=
  ∀ (x y n r : Nat) (vx vy : Byte) (s : State) (c : Cause), readReg x s = .ok vx → readReg y s = .ok vy → r < n →
    SpriteSafe s vx.toNat vy.toNat r → memRead (s.index.toNat + r) s = .error c →
    ∃ t, exec (.draw x y n) s = .next t ∧ t.status = .faulted c ∧ t.pc = s.pc ∧ t.v = s.v ∧ t.index = s.index ∧
      t.mem = s.mem ∧ t.stop = s.stop

/-- The first set bit that falls outside the grid ends DRAW with OUT_OF_BOUNDS_DRAW and its exact coordinates; `pc` is not
advanced. The order is decision D20 and that all else is kept decision D8 (log 9), the exact sums decision D7 (log 8). -/
def Obligations.DrawTakesTheFirstToggleFault : Prop :=
  ∀ (x y n r c : Nat) (vx vy : Byte) (s : State), readReg x s = .ok vx → readReg y s = .ok vy → r < n → c < 8 →
    SpriteSafe s vx.toNat vy.toNat r → RowReadable s r →
    (∀ c', c' < c → spriteBit (spriteByte s r) c' = true → InGrid (vx.toNat + c') (vy.toNat + r)) →
    spriteBit (spriteByte s r) c = true → ¬ InGrid (vx.toNat + c) (vy.toNat + r) →
    ∃ t, exec (.draw x y n) s = .next t ∧ t.status = .faulted (.outOfBoundsDraw (vx.toNat + c) (vy.toNat + r)) ∧
      t.pc = s.pc ∧ t.v = s.v ∧ t.index = s.index ∧ t.mem = s.mem ∧ t.stop = s.stop

/-- DRAW's frame, faulted or not: it writes no register (VF neither: no collision indicator, D13), not the index register
and no byte of memory, and it leaves the status or makes it Faulted. What a Faulted state keeps is decision D8 (log 9). -/
def Obligations.DrawWritesNothingButPixels : Prop :=
  ∀ (x y n : Nat) (s t : State), exec (.draw x y n) s = .next t →
    t.v = s.v ∧ t.index = s.index ∧ t.stop = s.stop ∧ (∀ a, t.mem.read a = s.mem.read a) ∧
    ((t.status = s.status ∧ t.pc = s.pc + 2#16) ∨ ((∃ c, t.status = .faulted c) ∧ t.pc = s.pc))

/-! ### Whole-machine rules -/

/-- No step changes a byte of memory or the host's stop predicate: during a run memory is constant (20_memory.md
section 4, where the spec marks this as derived; the stop predicate is the model's own field, log 2). -/
def Obligations.NoStepChangesMemory : Prop :=
  ∀ (k : Nat) (s t : State), Steps k s t → t.mem = s.mem ∧ t.stop = s.stop

/-- The instruction pointer moves by exactly 2 in a step that stays Running and not at all in one that ends the run, and
no step does anything else to it. The modulo is decision D6 (log 8). -/
def Obligations.PcMovesByTwoExactlyWhenTheRunGoesOn : Prop :=
  ∀ s t : State, step s = .next t →
    (t.status = .running ∧ t.pc = s.pc + 2#16) ∨ (t.status ≠ .running ∧ t.pc = s.pc)

/-- Execution is a straight line: after k steps that stay Running, `pc` is 2k further on and memory is as it was, so the
instruction fetched is the word there (40_fetch_sequencer.md section 2, where the spec marks this as derived). -/
def Obligations.ExecutionIsAStraightLine : Prop :=
  ∀ (k : Nat) (s t : State), Steps k s t → t.status = .running →
    t.pc = s.pc + BitVec.ofNat 16 (2 * k) ∧ t.mem = s.mem

/-- A step leaves status Running only to Stopped, exactly where the stop predicate holds, or to Faulted. The
status itself is the spec's own decision (D8, D10, logs 1 and 2). -/
def Obligations.StepStopsExactlyWhenThePredicateHolds : Prop :=
  ∀ s t : State, step s = .next t →
    s.status = .running ∧ (t.status = .stopped ↔ s.stop.holds s = true)

/-- A general register changes in a step only where the decoded instruction is SET-REGISTER or ADD-IMMEDIATE and names it;
so VF changes only then (10_state.md section 2, where the spec marks this as derived). -/
def Obligations.OnlyANamedRegisterChanges : Prop :=
  ∀ (s t : State) (j : Nat), step s = .next t → readReg j t ≠ readReg j s →
    ∃ kk, s.Fetches (.setRegister j kk) ∨ s.Fetches (.addImmediate j kk)

/-- The index register changes in a step only by SET-INDEX (10_state.md section 3). -/
def Obligations.OnlySetIndexChangesTheIndex : Prop :=
  ∀ s t : State, step s = .next t → t.index ≠ s.index → ∃ nnn, s.Fetches (.setIndex nnn)

/-- A pixel changes in a step only by DRAW (10_state.md section 6). -/
def Obligations.OnlyDrawChangesPixels : Prop :=
  ∀ s t : State, step s = .next t → t.pixels ≠ s.pixels → ∃ x y n, s.Fetches (.draw x y n)

/-- A register that an instruction does not name has no influence on it: changing its value before is changing it
after (10_state.md section 2, where the spec marks the access table as derived). -/
def Obligations.UnnamedRegistersDoNotMatter : Prop :=
  ∀ (i : Instr) (s t : State) (k : Nat) (hk : k < Config.numRegs) (b : Byte), ¬ i.names k → exec i s = .next t →
    exec i { s with v := s.v.set k b } = .next { t with v := t.v.set k b }

/-- No instruction reads the pixel buffer, a toggle apart: with another buffer in its place, `exec` of the instruction gives
the same registers, index register, `pc`, status, memory and stop predicate (10_state.md section 6). This is said of
instructions: the host's stop predicate may test a pixel, so a step's stop check may depend on one. -/
def Obligations.NoInstructionReadsThePixelBuffer : Prop :=
  ∀ (i : Instr) (s t : State) (pb : PixelBuffer), exec i s = .next t →
    ∃ u, exec i { s with pixels := pb } = .next u ∧ u.v = t.v ∧ u.index = t.index ∧ u.pc = t.pc ∧
      u.status = t.status ∧ u.mem = t.mem ∧ u.stop = t.stop

/-- No instruction reads `pc` as an operand, nor the host's stop predicate: changing either changes no result
(10_state.md section 4; the stop predicate is the model's own field, log 2). -/
def Obligations.PcAndStopAreNoOperands : Prop :=
  ∀ (i : Instr) (s t : State) (p : Word) (c : StopCondition), exec i s = .next t →
    ∃ u, exec i { s with pc := p, stop := c } = .next u ∧ u.v = t.v ∧ u.index = t.index ∧ u.pixels = t.pixels ∧
      u.status = t.status ∧ u.mem = t.mem ∧ u.pc - p = t.pc - s.pc

/-- Only DRAW reads the index register: changing it before any other instruction changes no other part of the result
(10_state.md section 3). -/
def Obligations.OnlyDrawReadsTheIndex : Prop :=
  ∀ (i : Instr) (s t : State) (a : Word), (∀ x y n, i ≠ .draw x y n) → exec i s = .next t →
    ∃ u, exec i { s with index := a } = .next u ∧ u.v = t.v ∧ u.pixels = t.pixels ∧ u.pc = t.pc ∧
      u.status = t.status ∧ u.mem = t.mem ∧ u.stop = t.stop ∧
      ((∃ nnn, i = .setIndex nnn) → u.index = t.index) ∧ ((∀ nnn, i ≠ .setIndex nnn) → u.index = a)

/-! ### Faults -/

/-- The codes 1 to 6 of the fault kinds (60_exceptions.md section 1); the numbers are labels the spec chose (D9). -/
def Obligations.FaultKindsHaveTheirCodes : Prop :=
  ∀ (w : Word) (a b : Nat),
    (Cause.unsupportedInstruction w).code = 1 ∧ (Cause.fontRegionRead a).code = 2 ∧
    (Cause.reservedInterpreterRead a).code = 3 ∧ (Cause.registerIndexOutOfRange a).code = 4 ∧
    (Cause.outOfBoundsDraw a b).code = 5 ∧ (Cause.memoryOutOfRange a).code = 6

/-- No step of a running core ends in REGISTER_INDEX_OUT_OF_RANGE, in any state whatever: decode guarantees the
range (10_state.md section 2, where the spec marks this as derived). -/
def Obligations.NoStepRaisesARegisterIndexFault : Prop :=
  ∀ (s t : State) (j : Nat), step s = .next t → t.status ≠ .faulted (.registerIndexOutOfRange j)

/-- Which kinds the execute step of which instruction can raise: none for CLEAR, SET-INDEX, SET-REGISTER and
ADD-IMMEDIATE; for DRAW a read fault at the address of one of its rows, or a toggle outside the grid
(60_exceptions.md section 1, where the spec marks the table as derived; the reads by D4 and D3, log 7; the exact
coordinates by D7, log 8). -/
def Obligations.OnlyDrawFaultsInItsExecuteStep : Prop :=
  ∀ (i : Instr) (s t : State) (c : Cause), i.wf = true → s.status = .running → exec i s = .next t →
    t.status = .faulted c →
    ∃ x y n, i = .draw x y n ∧
      ((∃ r, r < n ∧ memRead (s.index.toNat + r) s = .error c) ∨
        (∃ X Y, ¬ InGrid X Y ∧ c = .outOfBoundsDraw X Y))

/-- In a state that meets the invariant of every run, a fetch can fault only at `pc` = 4094, and then with
MEMORY_OUT_OF_RANGE at 4095 (D3, log 7). -/
def Obligations.FetchFaultsOnlyAtTheLastAddress : Prop :=
  ∀ (s : State) (c : Cause), s.Inv → fetchWord s = .error c → s.pc.toNat = 4094 ∧ c = .memoryOutOfRange 4095

/-! ### Reset, launch and the end of a run -/

/-- After reset and the image load every piece of state holds its stated value: registers and index register 0, `pc` at
0x200, every pixel off, Running (D11, log 11), the image's bytes from 0x200 and 0 everywhere else, and the host's
stop predicate in its place. An image of any length up to 3583 launches. -/
def Obligations.LaunchLeavesTheStatedValues : Prop :=
  ∀ (image : List Byte) (stop : StopCondition), image.length ≤ 3583 →
    ∃ s, launch image stop = some s ∧ (∀ j, j < 16 → readReg j s = .ok 0#8) ∧ s.index = 0#16 ∧ s.pc = 0x200#16 ∧
      (∀ x y, x < 64 → y < 32 → s.pixels.pixel x y = some false) ∧ s.status = .running ∧ s.stop = stop ∧
      ImageLoaded image s

/-- An image longer than 3583 bytes launches no run (decision D16, log 10). -/
def Obligations.OverlongImageLaunchesNoRun : Prop :=
  ∀ (image : List Byte) (stop : StopCondition), 3583 < image.length → launch image stop = none

/-- The invariant of every run holds right after reset. -/
def Obligations.InvariantHoldsAtReset : Prop := State.reset.Inv

/-- The invariant of every run holds in every state a launch gives, whatever the image and the stop predicate. -/
def Obligations.InvariantHoldsAtLaunch : Prop :=
  ∀ (image : List Byte) (stop : StopCondition) (s : State), launch image stop = some s → s.Inv

/-- Every step keeps the invariant: memory stays canonical, `pc` even, at least 0x200 and below 4095 (so its wrap is
unreachable; the spec marks these bounds as derived), the index register a 12-bit address, and a recorded fault one that a
run can raise with the information it can carry. -/
def Obligations.EveryStepKeepsTheInvariant : Prop :=
  ∀ s t : State, s.Inv → step s = .next t → t.Inv

/-- Every run ends: from any running state that meets the invariant, at most 1792 steps lead to a state that is Stopped or
Faulted, at most 1791 of them complete an instruction, and where the stop predicate holds in no state on the way the
end is a fault (40_fetch_sequencer.md section 3, where the spec marks this as derived). -/
def Obligations.EveryRunEndsWithin1792Steps : Prop :=
  ∀ s : State, s.Inv → s.status = .running →
    ∃ k t, k ≤ 1792 ∧ Steps k s t ∧ t.status ≠ .running ∧ t.pc.toNat ≤ s.pc.toNat + 2 * 1791 ∧
      ((∀ u, Reaches s u → u.stop.holds u = false) → ∃ c, t.status = .faulted c)

/-- A run has an output exactly when it never faults: from a running state that meets the invariant, some state reached is
Stopped if and only if no state reached is Faulted (40_fetch_sequencer.md section 3). -/
def Obligations.ARunHasAnOutputExactlyWhenItNeverFaults : Prop :=
  ∀ s : State, s.Inv → s.status = .running → (EndsStopped s ↔ SafeFrom s)

/-- The core is deterministic: a run has one end. Two terminal states reached from one state are the same, after the same
number of steps (70_reset_and_hazards.md section 3, where the spec marks this as derived). -/
def Obligations.ARunHasOneEnd : Prop :=
  ∀ (j k : Nat) (s t u : State), Steps j s t → Steps k s u → t.Terminal → u.Terminal → j = k ∧ t = u

/-- The output is the row-major 64 x 32 grid of a run that ended Stopped, pixel (x, y) at y * 64 + x; a run that ended
Faulted, or has not ended, has none (40_fetch_sequencer.md section 3, 10_state.md section 6). -/
def Obligations.OutputIsTheRowMajorGridOfAStoppedRun : Prop :=
  ∀ s : State,
    (s.status = .stopped → ∃ out, s.output = some out ∧ out.length = 64 * 32 ∧
      ∀ x y, x < 64 → y < 32 → out[y * 64 + x]? = s.pixels.pixel x y) ∧
    (s.status ≠ .stopped → s.output = none)
end

