-- ==== Sys2Proof/Laws/Config.lean ====
section
/-! SUPPORT. The word types have the widths that spec R6 names, and the longest image is 3583 bytes. -/
namespace Sys2Proof

theorem byte_has_regWidth : Byte = BitVec Config.regWidth := rfl

theorem word_has_indexWidth : Word = BitVec Config.indexWidth := rfl

theorem word_has_ipWidth : Word = BitVec Config.ipWidth := rfl

theorem maxImage_eq : Config.maxImage = 3583 := rfl

end Sys2Proof
end

