-- ==== Sys2Proof/Laws/Decode.lean ====
section
/-!
SUPPORT. The laws of byte order, of the fields, of the decoder's result and of the encoder: each field and each encoding as
arithmetic on the word's number, and the one case each result can come from.
-/
namespace Sys2Proof

theorem wordOfBytes_toNat (hi lo : Byte) : (wordOfBytes hi lo).toNat = 256 * hi.toNat + lo.toNat := by
  have := lo.isLt
  have := hi.isLt
  simp only [wordOfBytes, BitVec.toNat_append, Nat.shiftLeft_eq]
  rw [Nat.mul_comm, show (256 : Nat) = 2 ^ 8 from rfl, Nat.two_pow_add_eq_or_of_lt lo.isLt]

theorem highByte_toNat (w : Word) : (highByte w).toNat = w.toNat / 256 := by
  have := w.isLt
  simp [highByte, Nat.shiftRight_eq_div_pow]; omega

theorem lowByte_toNat (w : Word) : (lowByte w).toNat = w.toNat % 256 := by
  simp [lowByte]

theorem opcodeField_toNat (w : Word) : (opcodeField w).toNat = w.toNat / 4096 := by
  have := w.isLt
  simp [opcodeField, Nat.shiftRight_eq_div_pow]; omega

theorem xField_eq (w : Word) : xField w = w.toNat / 256 % 16 := by
  simp [xField, Nat.shiftRight_eq_div_pow]

theorem yField_eq (w : Word) : yField w = w.toNat / 16 % 16 := by
  simp [yField, Nat.shiftRight_eq_div_pow]

theorem nField_eq (w : Word) : nField w = w.toNat % 16 := by
  simp [nField]

theorem kkField_toNat (w : Word) : (kkField w).toNat = w.toNat % 256 := by
  simp [kkField]

theorem nnnField_toNat (w : Word) : (nnnField w).toNat = w.toNat % 4096 := by
  simp [nnnField]

/-- The two bytes of a word make the word again. -/
theorem wordOfBytes_highByte_lowByte (w : Word) : wordOfBytes (highByte w) (lowByte w) = w := by
  apply BitVec.eq_of_toNat_eq
  rw [wordOfBytes_toNat, highByte_toNat, lowByte_toNat]
  omega

/-- Everything the decoder can answer: one case for each operation, with the top nibble it comes from, or the raw word. -/
theorem decode_cases (w : Word) :
    (w = 0x00E0#16 ∧ decode w = .decoded .clear) ∨
    (opcodeField w = 0x6#4 ∧ decode w = .decoded (.setRegister (xField w) (kkField w))) ∨
    (opcodeField w = 0x7#4 ∧ decode w = .decoded (.addImmediate (xField w) (kkField w))) ∨
    (opcodeField w = 0xA#4 ∧ decode w = .decoded (.setIndex (nnnField w))) ∨
    (opcodeField w = 0xD#4 ∧ decode w = .decoded (.draw (xField w) (yField w) (nField w))) ∨
    (w ≠ 0x00E0#16 ∧ opcodeField w ≠ 0x6#4 ∧ opcodeField w ≠ 0x7#4 ∧ opcodeField w ≠ 0xA#4 ∧
      opcodeField w ≠ 0xD#4 ∧ decode w = .unsupportedInstruction w) := by
  unfold decode
  split
  · next h =>
    split
    · exact .inl ⟨‹_›, rfl⟩
    · simp_all
  · simp_all
  · simp_all
  · simp_all
  · simp_all
  · next h0 h6 h7 hA hD =>
    have : w ≠ 0x00E0#16 := fun e => h0 (by rw [e]; rfl)
    simp_all

/-- A word is decoded as itself or reported as itself. -/
theorem decode_unsupported_word {w raw : Word} (h : decode w = .unsupportedInstruction raw) : raw = w := by
  rcases decode_cases w with ⟨-, h'⟩ | ⟨-, h'⟩ | ⟨-, h'⟩ | ⟨-, h'⟩ | ⟨-, h'⟩ | ⟨-, -, -, -, -, h'⟩ <;> simp_all

/-- Two bytes or more: the decoder reads the word they make. -/
theorem decodeBytes_cons_cons (hi lo : Byte) (rest : List Byte) :
    decodeBytes (hi :: lo :: rest) =
      match decode (wordOfBytes hi lo) with
      | .decoded i => .ok (i, rest)
      | .unsupportedInstruction w => .error (.unsupported w) := rfl

/-- The table's reading of a word is the decoder's. -/
theorem decodeTableWord_eq (nbits w : Nat) :
    decodeTableWord nbits w =
      match decode (tableWord nbits w) with
      | .decoded i => some i
      | .unsupportedInstruction _ => none := by
  simp only [decodeTableWord, decodeBytes_cons_cons, wordOfBytes_highByte_lowByte]
  cases decode (tableWord nbits w) <;> rfl

/-! ### Well-formedness -/

@[simp] theorem wf_clear : Instr.clear.wf = true := rfl

@[simp] theorem wf_setIndex (nnn : Address12) : (Instr.setIndex nnn).wf = true := rfl

@[simp] theorem wf_setRegister (x : Nat) (kk : Byte) : (Instr.setRegister x kk).wf = true ↔ x < 16 := by
  simp [Instr.wf, regIndexOk, Config.numRegs]

@[simp] theorem wf_addImmediate (x : Nat) (kk : Byte) : (Instr.addImmediate x kk).wf = true ↔ x < 16 := by
  simp [Instr.wf, regIndexOk, Config.numRegs]

@[simp] theorem wf_draw (x y n : Nat) : (Instr.draw x y n).wf = true ↔ x < 16 ∧ y < 16 ∧ n < 16 := by
  simp [Instr.wf, regIndexOk, countOk, Config.numRegs, Config.countLimit, and_assoc]

/-! ### Fields and encodings as numbers -/

/-- The top nibble of a word, as a number. -/
theorem opcodeField_eq_iff (w : Word) {n : Nat} (hn : n < 16) :
    opcodeField w = BitVec.ofNat 4 n ↔ w.toNat / 4096 = n := by
  rw [← opcodeField_toNat]
  constructor
  · intro h
    rw [h]
    simp
    omega
  · intro h
    apply BitVec.eq_of_toNat_eq
    simp
    omega

theorem placeX_toNat (x : Nat) : (placeX x).toNat = x % 16 * 256 := by
  simp [placeX, Nat.shiftLeft_eq]; omega

theorem placeY_toNat (y : Nat) : (placeY y).toNat = y % 16 * 16 := by
  simp [placeY, Nat.shiftLeft_eq]; omega

theorem placeN_toNat (n : Nat) : (placeN n).toNat = n % 16 := by
  simp [placeN]; omega

theorem placeKK_toNat (kk : Byte) : (placeKK kk).toNat = kk.toNat := by
  have := kk.isLt
  simp [placeKK]; omega

theorem placeNNN_toNat (nnn : Address12) : (placeNNN nnn).toNat = nnn.toNat := by
  have := nnn.isLt
  simp [placeNNN]; omega

/-- Fields that do not overlap add up. -/
theorem or_toNat_of_disjoint {a b : Word} (k : Nat) (ha : a.toNat % 2 ^ k = 0) (hb : b.toNat < 2 ^ k) :
    (a ||| b).toNat = a.toNat + b.toNat := by
  have := Nat.two_pow_add_eq_or_of_lt hb (a.toNat / 2 ^ k)
  rw [Nat.mul_div_cancel' (Nat.dvd_of_mod_eq_zero ha)] at this
  rw [BitVec.toNat_or, this]

/-- The words of the pattern `op x kk`. -/
theorem encode_xkk_toNat {op : Word} (h : op.toNat % 4096 = 0) (x : Nat) (kk : Byte) :
    (op ||| placeX x ||| placeKK kk).toNat = op.toNat + x % 16 * 256 + kk.toNat := by
  have := kk.isLt
  have hx : (op ||| placeX x).toNat = op.toNat + x % 16 * 256 := by
    rw [or_toNat_of_disjoint 12 h (by rw [placeX_toNat]; omega), placeX_toNat]
  rw [or_toNat_of_disjoint 8 (by rw [hx]; omega) (by rw [placeKK_toNat]; omega), hx, placeKK_toNat]

theorem encode_setIndex_toNat (nnn : Address12) : (encode (.setIndex nnn)).toNat = 0xA000 + nnn.toNat := by
  have := nnn.isLt
  rw [encode, or_toNat_of_disjoint 12 (by decide) (by rw [placeNNN_toNat]; omega), placeNNN_toNat]
  rfl

theorem encode_setRegister_toNat (x : Nat) (kk : Byte) :
    (encode (.setRegister x kk)).toNat = 0x6000 + x % 16 * 256 + kk.toNat := encode_xkk_toNat (by decide) x kk

theorem encode_addImmediate_toNat (x : Nat) (kk : Byte) :
    (encode (.addImmediate x kk)).toNat = 0x7000 + x % 16 * 256 + kk.toNat := encode_xkk_toNat (by decide) x kk

theorem encode_draw_toNat (x y n : Nat) :
    (encode (.draw x y n)).toNat = 0xD000 + x % 16 * 256 + y % 16 * 16 + n % 16 := by
  have hx : (0xD000#16 ||| placeX x).toNat = 0xD000 + x % 16 * 256 := by
    rw [or_toNat_of_disjoint 12 (by decide) (by rw [placeX_toNat]; omega), placeX_toNat]
    rfl
  have hy : (0xD000#16 ||| placeX x ||| placeY y).toNat = 0xD000 + x % 16 * 256 + y % 16 * 16 := by
    rw [or_toNat_of_disjoint 8 (by rw [hx]; omega) (by rw [placeY_toNat]; omega), hx, placeY_toNat]
  rw [encode, or_toNat_of_disjoint 4 (by rw [hy]; omega) (by rw [placeN_toNat]; omega), hy, placeN_toNat]

/-! ### The rows of the opcode table -/

/-- Masking with 0xF000 keeps the top nibble alone. -/
theorem and_topNibble_toNat (w : Word) : (w &&& 0xF000#16).toNat = w.toNat / 4096 * 4096 := by
  have hw := w.isLt
  have : w &&& 0xF000#16 = (w >>> 12) <<< 12 := by
    ext k hk
    have : k = 0 ∨ k = 1 ∨ k = 2 ∨ k = 3 ∨ k = 4 ∨ k = 5 ∨ k = 6 ∨ k = 7 ∨ k = 8 ∨ k = 9 ∨ k = 10 ∨ k = 11 ∨
      k = 12 ∨ k = 13 ∨ k = 14 ∨ k = 15 := by omega
    rcases this with rfl | rfl | rfl | rfl | rfl | rfl | rfl | rfl | rfl | rfl | rfl | rfl | rfl | rfl | rfl | rfl <;> simp
  rw [this]
  simp [Nat.shiftRight_eq_div_pow, Nat.shiftLeft_eq]
  omega

/-- A row with the mask 0xF000 selects the words with its top nibble. -/
theorem selects_topNibble_row (m : String) {n : Nat} (hn : n < 16) (w : Word) :
    OpcodeRow.selects ⟨m, BitVec.ofNat 16 (n * 4096), 0xF000#16⟩ w = true ↔ opcodeField w = BitVec.ofNat 4 n := by
  rw [opcodeField_eq_iff w hn, OpcodeRow.selects, decide_eq_true_eq]
  constructor
  · intro h
    have := congrArg BitVec.toNat h
    rw [and_topNibble_toNat] at this
    simp at this
    omega
  · intro h
    apply BitVec.eq_of_toNat_eq
    rw [and_topNibble_toNat]
    simp
    omega

/-- The row with the full mask selects its one word. -/
theorem selects_clear_row (m : String) (w : Word) :
    OpcodeRow.selects ⟨m, 0x00E0#16, 0xFFFF#16⟩ w = true ↔ w = 0x00E0#16 := by
  have : w &&& 0xFFFF#16 = w := by simpa using BitVec.and_allOnes (x := w)
  simp [OpcodeRow.selects, this]

/-- A fact about every row is five facts. -/
theorem forall_opcodeRows (P : OpcodeRow → Prop) :
    (∀ r ∈ opcodeRows, P r) ↔
      P ⟨"CLEAR", 0x00E0#16, 0xFFFF#16⟩ ∧ P ⟨"SET-INDEX", BitVec.ofNat 16 (10 * 4096), 0xF000#16⟩ ∧
      P ⟨"SET-REGISTER", BitVec.ofNat 16 (6 * 4096), 0xF000#16⟩ ∧
      P ⟨"ADD-IMMEDIATE", BitVec.ofNat 16 (7 * 4096), 0xF000#16⟩ ∧
      P ⟨"DRAW", BitVec.ofNat 16 (13 * 4096), 0xF000#16⟩ := by
  simp [opcodeRows]

end Sys2Proof
end

