-- ==== Sys2Proof/Laws/Memory.lean ====
section
/-!
SUPPORT. The laws of the memory list: what a read after a write gives, that a write keeps the canonical form, and what
each port can answer.
-/
namespace Sys2Proof.Machine

@[simp] theorem Memory.unlistedByte_eq : Memory.unlistedByte = 0#8 := rfl

@[simp] theorem Memory.read_nil (a : Nat) : Memory.read [] a = 0#8 := rfl

theorem Memory.read_cons (b : Nat) (u : Byte) (m : Memory) (a : Nat) :
    Memory.read ((b, u) :: m) a = if a = b then u else Memory.read m a := rfl

/-- An address below every listed one reads as an unlisted one. -/
theorem Memory.read_of_below {m : Memory} {a : Nat} (h : ∀ c ∈ m, a < c.1) : Memory.read m a = unlistedByte := by
  induction m with
  | nil => rfl
  | cons c m ih =>
    have hc : a < c.1 := h c (by simp)
    rw [show c = (c.1, c.2) from rfl, Memory.read_cons, if_neg (by omega)]
    exact ih fun d hd => h d (by simp [hd])

/-- A read after a write, of a memory whose addresses rise: the written byte at its address, the old byte elsewhere. -/
theorem Memory.read_write {m : Memory} (h : m.Pairwise fun c d => c.1 < d.1) (a : Nat) (v : Byte) (b : Nat) :
    (m.write a v).read b = if b = a then v else m.read b := by
  induction m with
  | nil =>
    rw [Memory.write]
    split
    · next hv => simp [hv]
    · rw [Memory.read_cons]
  | cons c m ih =>
    obtain ⟨c, u⟩ := c
    have hbelow : ∀ d ∈ m, c < d.1 := fun d hd => List.rel_of_pairwise_cons h hd
    have ih := ih (List.Pairwise.of_cons h)
    rw [Memory.write]
    split
    · next hac =>
      have hout : Memory.read ((c, u) :: m) a = unlistedByte :=
        Memory.read_of_below fun d hd => by
          rcases List.mem_cons.1 hd with rfl | hd
          · exact hac
          · exact Nat.lt_trans hac (hbelow d hd)
      split
      · next hv =>
        split
        · next hb => rw [hb, hout, hv]
        · rfl
      · rw [Memory.read_cons]
    · split
      · next hac =>
        subst hac
        have hout : Memory.read m a = unlistedByte := Memory.read_of_below hbelow
        split
        · next hv =>
          rw [Memory.read_cons]
          split
          · next hb => rw [hb, hout, hv]
          · rfl
        · rw [Memory.read_cons, Memory.read_cons]
          split <;> simp_all
      · next hle hne =>
        rw [Memory.read_cons, Memory.read_cons, ih]
        split
        · next hb => rw [if_neg (by omega)]
        · rfl

/-- What a written memory lists: the written cell or an old one. -/
theorem Memory.mem_of_mem_write {m : Memory} {a : Nat} {v : Byte} {c : Host.Cell} (h : c ∈ m.write a v) :
    c = (a, v) ∧ v ≠ unlistedByte ∨ c ∈ m := by
  induction m with
  | nil => by_cases hv : v = unlistedByte <;> simp_all [Memory.write]
  | cons d m ih =>
    obtain ⟨d, u⟩ := d
    rw [Memory.write] at h
    split at h
    · split at h
      · exact .inr h
      · rcases List.mem_cons.1 h with rfl | h
        · exact .inl ⟨rfl, ‹_›⟩
        · exact .inr h
    · split at h
      · split at h
        · exact .inr (List.mem_cons_of_mem _ h)
        · rcases List.mem_cons.1 h with rfl | h
          · exact .inl ⟨rfl, ‹_›⟩
          · exact .inr (List.mem_cons_of_mem _ h)
      · rcases List.mem_cons.1 h with rfl | h
        · exact .inr (by simp)
        · exact (ih h).imp id (List.mem_cons_of_mem _)

/-- A write keeps the addresses rising. -/
theorem Memory.write_rising {m : Memory} (h : m.Pairwise fun c d => c.1 < d.1) (a : Nat) (v : Byte) :
    (m.write a v).Pairwise fun c d => c.1 < d.1 := by
  induction m with
  | nil => rw [Memory.write]; split <;> simp
  | cons c m ih =>
    obtain ⟨c, u⟩ := c
    have hbelow : ∀ d ∈ m, c < d.1 := fun d hd => List.rel_of_pairwise_cons h hd
    have htail := List.Pairwise.of_cons h
    rw [Memory.write]
    split
    · next hac =>
      split
      · exact h
      · refine List.pairwise_cons.2 ⟨fun d hd => ?_, h⟩
        rcases List.mem_cons.1 hd with rfl | hd
        · exact hac
        · exact Nat.lt_trans hac (hbelow d hd)
    · split
      · next hac =>
        split
        · exact htail
        · exact List.pairwise_cons.2 ⟨fun d hd => hac ▸ hbelow d hd, htail⟩
      · refine List.pairwise_cons.2 ⟨fun d hd => ?_, ih htail⟩
        rcases Memory.mem_of_mem_write hd with ⟨rfl, -⟩ | hd
        · show c < a
          omega
        · exact hbelow d hd

/-- A write to an address the memory has keeps its canonical form. -/
theorem Memory.write_wf {m : Memory} (h : m.wf) {a : Nat} (ha : a < Config.memSize) (v : Byte) : (m.write a v).wf := by
  refine ⟨Memory.write_rising h.1 a v, fun c hc => ?_⟩
  rcases Memory.mem_of_mem_write hc with ⟨rfl, hv⟩ | hc
  · exact ⟨ha, hv⟩
  · exact h.2 c hc

/-- The empty list is in canonical form. -/
theorem Memory.nil_wf : Memory.wf [] := ⟨List.Pairwise.nil, by simp⟩

/-! ### The ports -/

/-- Where the read port answers a byte, and which. -/
theorem memRead_eq_ok {a : Nat} {s : State} {b : Byte} :
    memRead a s = .ok b ↔ (Config.programOrigin ≤ a ∧ a < Config.memSize) ∧ b = s.mem.read a := by
  simp only [memRead, Config.fontLimit, Config.programOrigin, Config.memSize]
  split
  · simp; omega
  · split
    · simp; omega
    · split
      · simp; omega
      · constructor
        · rintro h; cases h; exact ⟨by omega, rfl⟩
        · rintro ⟨-, rfl⟩; rfl

/-- Where the read port raises a fault, and which. -/
theorem memRead_eq_error {a : Nat} {s : State} {c : Cause} :
    memRead a s = .error c ↔
      (a < Config.fontLimit ∧ c = .fontRegionRead a) ∨
      (Config.fontLimit ≤ a ∧ a < Config.programOrigin ∧ c = .reservedInterpreterRead a) ∨
      (Config.memSize ≤ a ∧ c = .memoryOutOfRange a) := by
  simp only [memRead, Config.fontLimit, Config.programOrigin, Config.memSize]
  split
  · constructor
    · intro h; cases h; exact .inl ⟨‹_›, rfl⟩
    · rintro (⟨-, rfl⟩ | ⟨h, -⟩ | ⟨h, -⟩)
      · rfl
      all_goals omega
  · split
    · constructor
      · intro h; cases h; exact .inr (.inl ⟨by omega, ‹_›, rfl⟩)
      · rintro (⟨h, -⟩ | ⟨-, -, rfl⟩ | ⟨h, -⟩)
        · omega
        · rfl
        · omega
    · split
      · constructor
        · intro h; cases h; exact .inr (.inr ⟨‹_›, rfl⟩)
        · rintro (⟨h, -⟩ | ⟨-, h, -⟩ | ⟨-, rfl⟩)
          · omega
          · omega
          · rfl
      · constructor
        · intro h; cases h
        · rintro (⟨h, -⟩ | ⟨-, h, -⟩ | ⟨h, -⟩) <;> omega

/-- The read port looks at the memory alone. -/
theorem memRead_congr {s t : State} (h : t.mem = s.mem) (a : Nat) : memRead a t = memRead a s := by
  simp only [memRead, h]

/-- What the write port answers. -/
theorem memWrite_eq_some {a : Nat} {v : Byte} {s t : State} :
    memWrite a v s = some t ↔ a < Config.memSize ∧ t = { s with mem := s.mem.write a v } := by
  unfold memWrite
  split
  · simp [*, eq_comm]
  · simp [*]

/-- The fetch looks at the instruction pointer and the memory alone. -/
theorem fetchWord_congr {s t : State} (hp : t.pc = s.pc) (hm : t.mem = s.mem) : fetchWord t = fetchWord s := by
  simp only [fetchWord, hp, memRead_congr hm]

/-- When a fetch answers a word: both reads answer, and the first byte is the high one. -/
theorem fetchWord_eq_ok {s : State} {w : Word} :
    fetchWord s = .ok w ↔
      ∃ hi lo, memRead s.pc.toNat s = .ok hi ∧ memRead (s.pc.toNat + 1) s = .ok lo ∧ w = wordOfBytes hi lo := by
  simp only [fetchWord]
  cases memRead s.pc.toNat s <;> cases memRead (s.pc.toNat + 1) s <;> simp [eq_comm]

/-- When a fetch raises a fault: the first read does, or the first answers and the second does. -/
theorem fetchWord_eq_error {s : State} {c : Cause} :
    fetchWord s = .error c ↔
      memRead s.pc.toNat s = .error c ∨
        (∃ hi, memRead s.pc.toNat s = .ok hi) ∧ memRead (s.pc.toNat + 1) s = .error c := by
  simp only [fetchWord]
  cases memRead s.pc.toNat s <;> cases memRead (s.pc.toNat + 1) s <;> simp

end Sys2Proof.Machine
end

