-- ==== Sys2Proof/Laws/State.lean ====
section
/-!
SUPPORT. One lemma for each field and each named update of the state, true by rfl: what the update makes of the field. No
later proof unfolds a record update.
-/
namespace Sys2Proof.Machine

@[simp] theorem takeFault_v (c : Cause) (s : State) : (takeFault c s).v = s.v := rfl
@[simp] theorem takeFault_index (c : Cause) (s : State) : (takeFault c s).index = s.index := rfl
@[simp] theorem takeFault_pc (c : Cause) (s : State) : (takeFault c s).pc = s.pc := rfl
@[simp] theorem takeFault_pixels (c : Cause) (s : State) : (takeFault c s).pixels = s.pixels := rfl
@[simp] theorem takeFault_status (c : Cause) (s : State) : (takeFault c s).status = .faulted c := rfl
@[simp] theorem takeFault_mem (c : Cause) (s : State) : (takeFault c s).mem = s.mem := rfl
@[simp] theorem takeFault_stop (c : Cause) (s : State) : (takeFault c s).stop = s.stop := rfl

@[simp] theorem takeStop_v (s : State) : (takeStop s).v = s.v := rfl
@[simp] theorem takeStop_index (s : State) : (takeStop s).index = s.index := rfl
@[simp] theorem takeStop_pc (s : State) : (takeStop s).pc = s.pc := rfl
@[simp] theorem takeStop_pixels (s : State) : (takeStop s).pixels = s.pixels := rfl
@[simp] theorem takeStop_status (s : State) : (takeStop s).status = .stopped := rfl
@[simp] theorem takeStop_mem (s : State) : (takeStop s).mem = s.mem := rfl
@[simp] theorem takeStop_stop (s : State) : (takeStop s).stop = s.stop := rfl

@[simp] theorem advance_v (s : State) : (advance s).v = s.v := rfl
@[simp] theorem advance_index (s : State) : (advance s).index = s.index := rfl
@[simp] theorem advance_pc (s : State) : (advance s).pc = s.pc + 2#16 := rfl
@[simp] theorem advance_pixels (s : State) : (advance s).pixels = s.pixels := rfl
@[simp] theorem advance_status (s : State) : (advance s).status = s.status := rfl
@[simp] theorem advance_mem (s : State) : (advance s).mem = s.mem := rfl
@[simp] theorem advance_stop (s : State) : (advance s).stop = s.stop := rfl

@[simp] theorem writeIndex_v (a : Word) (s : State) : (writeIndex a s).v = s.v := rfl
@[simp] theorem writeIndex_index (a : Word) (s : State) : (writeIndex a s).index = a := rfl
@[simp] theorem writeIndex_pc (a : Word) (s : State) : (writeIndex a s).pc = s.pc := rfl
@[simp] theorem writeIndex_pixels (a : Word) (s : State) : (writeIndex a s).pixels = s.pixels := rfl
@[simp] theorem writeIndex_status (a : Word) (s : State) : (writeIndex a s).status = s.status := rfl
@[simp] theorem writeIndex_mem (a : Word) (s : State) : (writeIndex a s).mem = s.mem := rfl
@[simp] theorem writeIndex_stop (a : Word) (s : State) : (writeIndex a s).stop = s.stop := rfl

@[simp] theorem supplyStop_v (c : StopCondition) (s : State) : (supplyStop c s).v = s.v := rfl
@[simp] theorem supplyStop_index (c : StopCondition) (s : State) : (supplyStop c s).index = s.index := rfl
@[simp] theorem supplyStop_pc (c : StopCondition) (s : State) : (supplyStop c s).pc = s.pc := rfl
@[simp] theorem supplyStop_pixels (c : StopCondition) (s : State) : (supplyStop c s).pixels = s.pixels := rfl
@[simp] theorem supplyStop_status (c : StopCondition) (s : State) : (supplyStop c s).status = s.status := rfl
@[simp] theorem supplyStop_mem (c : StopCondition) (s : State) : (supplyStop c s).mem = s.mem := rfl
@[simp] theorem supplyStop_stop (c : StopCondition) (s : State) : (supplyStop c s).stop = c := rfl

@[simp] theorem reset_index : State.reset.index = 0#16 := rfl
@[simp] theorem reset_pc : State.reset.pc = 0x200#16 := rfl
@[simp] theorem reset_status : State.reset.status = .running := rfl
@[simp] theorem reset_mem : State.reset.mem = [] := rfl
@[simp] theorem reset_stop : State.reset.stop = .never := rfl

/-- Two states with equal fields are equal. -/
theorem State.eq_of_fields {s t : State} (hv : s.v = t.v) (hi : s.index = t.index) (hp : s.pc = t.pc)
    (hx : s.pixels = t.pixels) (hs : s.status = t.status) (hm : s.mem = t.mem) (hc : s.stop = t.stop) : s = t := by
  cases s; cases t; simp_all

end Sys2Proof.Machine
end

