-- ==== Sys2Proof/Laws/Effect.lean ====
section
/-!
SUPPORT. The laws of effects: what sequencing does, and the two ways to reason about a loop of effects, an invariant of the
states it passes through (`forEach_induct`) and a relation between two runs of it (`forEach_rel`).
-/
namespace Sys2Proof.Machine

/-- The state an effect comes to, done or not. -/
def Effect.state : Effect → State
  | .done s => s
  | .raised _ s => s

@[simp] theorem Effect.state_done (s : State) : (Effect.done s).state = s := rfl
@[simp] theorem Effect.state_raised (c : Cause) (s : State) : (Effect.raised c s).state = s := rfl

@[simp] theorem Effect.andThen_done (s : State) (f : State → Effect) : (Effect.done s).andThen f = f s := rfl
@[simp] theorem Effect.andThen_raised (c : Cause) (s : State) (f : State → Effect) :
    (Effect.raised c s).andThen f = .raised c s := rfl

@[simp] theorem need_ok {α : Type} (a : α) (s : State) (f : α → Effect) : need (.ok a) s f = f a := rfl
@[simp] theorem need_error {α : Type} (c : Cause) (s : State) (f : α → Effect) : need (.error c) s f = .raised c s := rfl

@[simp] theorem forEach_nil (f : Nat → State → Effect) (s : State) : forEach [] f s = .done s := rfl
@[simp] theorem forEach_cons (x : Nat) (xs : List Nat) (f : Nat → State → Effect) (s : State) :
    forEach (x :: xs) f s = (f x s).andThen (forEach xs f) := rfl

@[simp] theorem finish_done (s : State) : finish (.done s) = .next (advance s) := rfl
@[simp] theorem finish_raised (c : Cause) (s : State) : finish (.raised c s) = .next (takeFault c s) := rfl

/-- Everything the end of an execute step can do: it always answers a next state, the advance of a done effect or fault
entry from a raised one. -/
theorem finish_eq_next {e : Effect} {t : State} :
    finish e = .next t ↔ (∃ s, e = .done s ∧ t = advance s) ∨ (∃ c s, e = .raised c s ∧ t = takeFault c s) := by
  cases e <;> simp [eq_comm]

theorem Effect.andThen_eq_done {e : Effect} {f : State → Effect} {t : State} :
    e.andThen f = .done t ↔ ∃ s, e = .done s ∧ f s = .done t := by
  cases e <;> simp

theorem Effect.andThen_eq_raised {e : Effect} {f : State → Effect} {c : Cause} {t : State} :
    e.andThen f = .raised c t ↔ e = .raised c t ∨ ∃ s, e = .done s ∧ f s = .raised c t := by
  cases e <;> simp

theorem Effect.andThen_assoc (e : Effect) (f g : State → Effect) :
    (e.andThen f).andThen g = e.andThen fun s => (f s).andThen g := by
  cases e <;> rfl

/-- A loop over one list and then another is the two loops in turn. -/
theorem forEach_append (xs ys : List Nat) (f : Nat → State → Effect) (s : State) :
    forEach (xs ++ ys) f s = (forEach xs f s).andThen (forEach ys f) := by
  induction xs generalizing s with
  | nil => rfl
  | cons x xs ih =>
    simp only [List.cons_append, forEach_cons, Effect.andThen_assoc]
    cases f x s with
    | done t => exact ih t
    | raised c t => rfl

/-- A property of states that every pass of a loop keeps holds of the state the loop comes to. -/
theorem forEach_induct {P : State → Prop} {xs : List Nat} {f : Nat → State → Effect}
    (pass : ∀ x ∈ xs, ∀ s, P s → P (f x s).state) {s : State} (h : P s) : P (forEach xs f s).state := by
  induction xs generalizing s with
  | nil => exact h
  | cons x xs ih =>
    have hx := pass x (by simp) s h
    rw [forEach_cons]
    cases hf : f x s with
    | done t => exact ih (fun y hy => pass y (by simp [hy])) (by simpa [hf] using hx)
    | raised c t => simpa [hf] using hx

/-- The causes a loop raises are among those its passes raise from states the loop passes through. -/
theorem forEach_raised {P : State → Prop} {xs : List Nat} {f : Nat → State → Effect}
    (pass : ∀ x ∈ xs, ∀ s, P s → P (f x s).state) {s t : State} (h : P s) {c : Cause}
    (hr : forEach xs f s = .raised c t) : ∃ x ∈ xs, ∃ u, P u ∧ f x u = .raised c t := by
  induction xs generalizing s with
  | nil => simp at hr
  | cons x xs ih =>
    have hx := pass x (by simp) s h
    rw [forEach_cons, Effect.andThen_eq_raised] at hr
    rcases hr with hr | ⟨u, hu, hr⟩
    · exact ⟨x, by simp, s, h, hr⟩
    · obtain ⟨y, hy, w, hw, hf⟩ := ih (fun y hy => pass y (by simp [hy])) (by simpa [hu] using hx) hr
      exact ⟨y, by simp [hy], w, hw, hf⟩

/-- Two effects that end alike, in related states. -/
inductive EffectRel (R : State → State → Prop) : Effect → Effect → Prop where
  | done {s t : State} (h : R s t) : EffectRel R (.done s) (.done t)
  | raised (c : Cause) {s t : State} (h : R s t) : EffectRel R (.raised c s) (.raised c t)

/-- Two runs of a loop from related states end alike, in related states, where every pass does. -/
theorem forEach_rel {R : State → State → Prop} {xs : List Nat} {f g : Nat → State → Effect}
    (pass : ∀ x ∈ xs, ∀ s t, R s t → EffectRel R (f x s) (g x t)) {s t : State} (h : R s t) :
    EffectRel R (forEach xs f s) (forEach xs g t) := by
  induction xs generalizing s t with
  | nil => exact .done h
  | cons x xs ih =>
    have hx := pass x (by simp) s t h
    rw [forEach_cons, forEach_cons]
    revert hx
    generalize f x s = e, g x t = e'
    rintro (h | ⟨c, h⟩)
    · exact ih (fun y hy => pass y (by simp [hy])) h
    · exact .raised c h

/-- Two execute steps whose effects end alike end alike, in related states. -/
theorem finish_rel {R : State → State → Prop} {e e' : Effect} (h : EffectRel R e e')
    (hadvance : ∀ a b, R a b → R (advance a) (advance b)) (hfault : ∀ c a b, R a b → R (takeFault c a) (takeFault c b))
    {t : State} (ht : finish e = .next t) : ∃ u, finish e' = .next u ∧ R t u := by
  cases h with
  | done h =>
    cases ht
    exact ⟨_, rfl, hadvance _ _ h⟩
  | raised c h =>
    cases ht
    exact ⟨_, rfl, hfault c _ _ h⟩

end Sys2Proof.Machine
end

