-- ==== Sys2Proof/Laws/Registers.lean ====
section
/-! SUPPORT. The laws of the register file and of the operand forms. -/
namespace Sys2Proof.Machine

theorem readReg_of_lt {i : Nat} (h : i < Config.numRegs) (s : State) : readReg i s = .ok s.v[i] := dif_pos h

theorem readReg_of_ge {i : Nat} (h : Config.numRegs ≤ i) (s : State) :
    readReg i s = .error (.registerIndexOutOfRange i) := dif_neg (by omega)

/-- When a register read answers a byte. -/
theorem readReg_eq_ok {i : Nat} {s : State} {b : Byte} :
    readReg i s = .ok b ↔ ∃ h : i < Config.numRegs, b = s.v[i] := by
  unfold readReg
  split <;> simp [*, eq_comm]

/-- The register file is all a register read looks at. -/
theorem readReg_congr {s t : State} (h : t.v = s.v) (i : Nat) : readReg i t = readReg i s := by
  simp only [readReg, h]

theorem writeReg_of_lt {i : Nat} (h : i < Config.numRegs) (b : Byte) (s : State) :
    writeReg i b s = .done { s with v := s.v.set i b } := dif_pos h

theorem writeReg_of_ge {i : Nat} (h : Config.numRegs ≤ i) (b : Byte) (s : State) :
    writeReg i b s = .raised (.registerIndexOutOfRange i) s := dif_neg (by omega)

/-- A read after a register write: the written byte at its index, the old one elsewhere. -/
theorem readReg_set {i : Nat} (h : i < Config.numRegs) (b : Byte) (s : State) (j : Nat) :
    readReg j { s with v := s.v.set i b } = if j = i then .ok b else readReg j s := by
  unfold readReg
  by_cases hj : j < Config.numRegs
  · by_cases hji : j = i
    · subst hji
      simp [hj]
    · have : i ≠ j := fun e => hji e.symm
      simp [hj, hji, this]
  · rw [dif_neg hj, dif_neg hj, if_neg (by omega)]

@[simp] theorem addressOperand_toNat (nnn : Address12) : (addressOperand nnn).toNat = nnn.toNat := by
  have := nnn.isLt
  simp only [addressOperand, BitVec.truncate_eq_setWidth, BitVec.toNat_setWidth]
  omega

end Sys2Proof.Machine
end

