-- ==== Sys2Proof/Laws/Pixels.lean ====
section
/-!
SUPPORT. The laws of the pixel buffer and of its write controller: what a toggle does, and that drawing reads the index
register and the memory and writes pixels alone.
-/
namespace Sys2Proof.Machine

theorem inGrid_iff (x y : Nat) : InGrid x y ↔ x < 64 ∧ y < 32 := Iff.rfl

/-- A pixel inside the grid. -/
theorem PixelBuffer.pixel_of_inGrid (pb : PixelBuffer) {x y : Nat} (h : InGrid x y) :
    pb.pixel x y = some ((pb[y]'h.2)[x]'h.1) := dif_pos h

/-- There is no pixel outside the grid. -/
theorem PixelBuffer.pixel_of_not_inGrid (pb : PixelBuffer) {x y : Nat} (h : ¬ InGrid x y) : pb.pixel x y = none :=
  dif_neg h

/-- Two buffers with the same pixels are equal. -/
theorem PixelBuffer.eq_of_pixel {pb pb' : PixelBuffer} (h : ∀ x y, pb.pixel x y = pb'.pixel x y) : pb = pb' := by
  apply Vector.ext
  intro y hy
  apply Vector.ext
  intro x hx
  have := h x y
  rw [pb.pixel_of_inGrid ⟨hx, hy⟩, pb'.pixel_of_inGrid ⟨hx, hy⟩] at this
  exact Option.some.inj this

/-- The buffer with the pixel at (x, y) turned over. -/
def PixelBuffer.turnOver (pb : PixelBuffer) (x y : Nat) (h : InGrid x y) : PixelBuffer :=
  pb.set y ((pb[y]'h.2).set x (xor ((pb[y]'h.2)[x]'h.1) true) h.1) h.2

/-- Turning a pixel over negates it and leaves every other one alone. -/
theorem PixelBuffer.pixel_turnOver (pb : PixelBuffer) {x y : Nat} (h : InGrid x y) (x' y' : Nat) :
    (pb.turnOver x y h).pixel x' y' = (pb.pixel x' y').map (xor · (decide (x' = x ∧ y' = y))) := by
  by_cases h' : InGrid x' y'
  · rw [pixel_of_inGrid _ h', pixel_of_inGrid _ h']
    by_cases hy : y = y'
    · subst hy
      by_cases hx : x = x'
      · subst hx
        simp [turnOver]
      · have : ¬ x' = x := fun e => hx e.symm
        simp [turnOver, hx, this]
    · have : ¬ y' = y := fun e => hy e.symm
      simp [turnOver, hy, this]
  · rw [pixel_of_not_inGrid _ h', pixel_of_not_inGrid _ h']
    rfl

/-- Everything a toggle inside the grid does. -/
theorem toggle_of_inGrid {x y : Nat} (h : InGrid x y) (s : State) :
    toggle x y s = .done { s with pixels := s.pixels.turnOver x y h } := dif_pos h

/-- A toggle outside the grid raises OUT_OF_BOUNDS_DRAW and writes nothing. -/
theorem toggle_of_not_inGrid {x y : Nat} (h : ¬ InGrid x y) (s : State) :
    toggle x y s = .raised (.outOfBoundsDraw x y) s := dif_neg h

/-- The state is the other one with some pixel buffer. -/
def PixelsAside (s t : State) : Prop := ∃ pb, t = { s with pixels := pb }

theorem PixelsAside.refl (s : State) : PixelsAside s s := ⟨s.pixels, rfl⟩

theorem PixelsAside.trans {s t u : State} (h : PixelsAside s t) (h' : PixelsAside t u) : PixelsAside s u := by
  obtain ⟨pb, rfl⟩ := h
  obtain ⟨pb', rfl⟩ := h'
  exact ⟨pb', rfl⟩

/-- A toggle writes pixels alone. -/
theorem toggle_pixelsAside (x y : Nat) (s : State) : PixelsAside s (toggle x y s).state := by
  by_cases h : InGrid x y
  · rw [toggle_of_inGrid h]
    exact ⟨_, rfl⟩
  · rw [toggle_of_not_inGrid h]
    exact .refl s

/-- One column of a sprite row writes pixels alone. -/
theorem drawColumn_pixelsAside (b : Byte) (x0 y c : Nat) (s : State) : PixelsAside s (drawColumn b x0 y c s).state := by
  unfold drawColumn
  split
  · exact toggle_pixelsAside _ _ s
  · exact .refl s

/-- One row of a sprite writes pixels alone. -/
theorem drawRow_pixelsAside (x0 y0 r : Nat) (s : State) : PixelsAside s (drawRow x0 y0 r s).state := by
  unfold drawRow
  cases memRead (spriteAddress s r) s with
  | error c => exact .refl s
  | ok b =>
    exact forEach_induct (P := PixelsAside s) (fun c _ u hu => hu.trans (drawColumn_pixelsAside b x0 _ c u)) (.refl s)

/-- A sprite writes pixels alone. -/
theorem drawSprite_pixelsAside (x0 y0 n : Nat) (s : State) : PixelsAside s (drawSprite x0 y0 n s).state :=
  forEach_induct (P := PixelsAside s) (fun r _ u hu => hu.trans (drawRow_pixelsAside x0 y0 r u)) (.refl s)

/-- Two states in which drawing goes alike: a relation that gives the same index register and the same memory and that
toggles keep. -/
structure DrawsAlike (R : State → State → Prop) : Prop where
  index : ∀ {s t}, R s t → t.index = s.index
  mem : ∀ {s t}, R s t → t.mem = s.mem
  toggle : ∀ {s t} (x y : Nat), R s t → EffectRel R (toggle x y s) (toggle x y t)

/-- Drawing one sprite in two states that a `DrawsAlike` relation relates ends alike, in related states. -/
theorem drawSprite_rel {R : State → State → Prop} (hR : DrawsAlike R) (x0 y0 n : Nat) {s t : State} (h : R s t) :
    EffectRel R (drawSprite x0 y0 n s) (drawSprite x0 y0 n t) := by
  refine forEach_rel (fun r _ u w hu => ?_) h
  have hread : memRead (spriteAddress w r) w = memRead (spriteAddress u r) u := by
    rw [spriteAddress, spriteAddress, hR.index hu, memRead_congr (hR.mem hu)]
  unfold drawRow
  rw [hread]
  cases memRead (spriteAddress u r) u with
  | error c => exact .raised c hu
  | ok b =>
    refine forEach_rel (fun c _ u' w' hu' => ?_) hu
    unfold drawColumn
    split
    · exact hR.toggle _ _ hu'
    · exact .done hu'

/-- Drawing goes alike before and after an update that leaves index register, memory and pixels alone and that commutes
with pixel writes. -/
theorem drawsAlike_of_update (U : State → State) (hindex : ∀ s, (U s).index = s.index) (hmem : ∀ s, (U s).mem = s.mem)
    (hpixels : ∀ s, (U s).pixels = s.pixels)
    (hcomm : ∀ s pb, { U s with pixels := pb } = U { s with pixels := pb }) : DrawsAlike fun s t => t = U s where
  index := by
    rintro s t rfl
    exact hindex s
  mem := by
    rintro s t rfl
    exact hmem s
  toggle := by
    rintro s t x y rfl
    by_cases h : InGrid x y
    · rw [toggle_of_inGrid h, toggle_of_inGrid h, hpixels]
      exact .done (hcomm s _)
    · rw [toggle_of_not_inGrid h, toggle_of_not_inGrid h]
      exact .raised _ rfl

end Sys2Proof.Machine
end

