-- ==== Sys2Proof/Laws/HostInterface.lean ====
section
/-!
SUPPORT. What the host's actions do: the loader's writes, a launch, the row-major output, and the placing of a word.
-/
namespace Sys2Proof.Machine

/-- The loader's writes from an address up: the image's bytes there, every other byte as before, canonical form kept, and
nothing but memory touched. -/
theorem loadBytes_eq_some (image : List Byte) (a : Nat) (s : State) (ha : a + image.length ≤ Config.memSize)
    (hwf : s.mem.wf) :
    ∃ m : Memory, loadBytes a image s = some { s with mem := m } ∧ m.wf ∧
      ∀ b, m.read b = if h : a ≤ b ∧ b < a + image.length then image[b - a] else s.mem.read b := by
  induction image generalizing a s with
  | nil => exact ⟨s.mem, rfl, hwf, fun b => by rw [dif_neg]; simp⟩
  | cons v image ih =>
    simp only [List.length_cons] at ha
    have hlt : a < Config.memSize := by omega
    obtain ⟨m, hload, hm, hread⟩ :=
      ih (a + 1) { s with mem := s.mem.write a v } (by omega) (Memory.write_wf hwf hlt v)
    refine ⟨m, ?_, hm, fun b => ?_⟩
    · rw [loadBytes, memWrite_eq_some.2 ⟨hlt, rfl⟩]
      exact hload
    · rw [hread b]
      by_cases hb : b = a
      · subst hb
        rw [dif_neg (by omega), dif_pos (by simp)]
        simp [Memory.read_write hwf.1]
      · by_cases hin : a + 1 ≤ b ∧ b < a + 1 + image.length
        · rw [dif_pos hin, dif_pos (by simp; omega)]
          simp [show b - a = (b - (a + 1)) + 1 by omega]
        · rw [dif_neg hin, dif_neg (by simp; omega)]
          simp [Memory.read_write hwf.1, hb]

/-- A launch with an image that fits: the state after reset with the image's memory and the host's stop predicate. -/
theorem launch_eq_some {image : List Byte} (stop : StopCondition) (h : image.length ≤ Config.maxImage) :
    ∃ m : Memory, launch image stop = some { State.reset with mem := m, stop := stop } ∧ m.wf ∧
      ∀ b, m.read b =
        if h : Config.programOrigin ≤ b ∧ b < Config.programOrigin + image.length then image[b - Config.programOrigin]
        else 0#8 := by
  obtain ⟨m, hload, hm, hread⟩ := loadBytes_eq_some image Config.programOrigin State.reset
    (by simp only [Config.maxImage, Config.memSize, Config.programOrigin] at *; omega) Memory.nil_wf
  refine ⟨m, ?_, hm, hread⟩
  rw [launch, loadImage, if_pos h, hload]
  rfl

/-- An image that does not fit launches nothing. -/
theorem launch_eq_none {image : List Byte} (stop : StopCondition) (h : Config.maxImage < image.length) :
    launch image stop = none := by
  rw [launch, loadImage, if_neg (by omega)]
  rfl

/-- The flattening of rows of one length is row-major. -/
theorem flatten_rows {rows : List (List Bool)} {w : Nat} (h : ∀ r ∈ rows, r.length = w) :
    rows.flatten.length = rows.length * w ∧
      ∀ x y, x < w → rows.flatten[y * w + x]? = rows[y]?.bind fun r => r[x]? := by
  induction rows with
  | nil => simp
  | cons r rows ih =>
    obtain ⟨hlen, hget⟩ := ih fun q hq => h q (by simp [hq])
    have hr := h r (by simp)
    constructor
    · simp only [List.flatten_cons, List.length_append, hlen, hr, List.length_cons, Nat.add_mul]
      omega
    · intro x y hx
      rw [List.flatten_cons]
      cases y with
      | zero => simp [List.getElem?_append, hr, hx]
      | succ y =>
        rw [List.getElem?_append_right (by rw [hr, Nat.add_mul]; omega), hr,
          show (y + 1) * w + x - w = y * w + x by rw [Nat.add_mul]; omega, hget x y hx]
        simp

/-- The output's list is row-major. -/
theorem PixelBuffer.rowMajor_getElem? (pb : PixelBuffer) {x y : Nat} (h : InGrid x y) :
    pb.rowMajor[linearIndex x y]? = pb.pixel x y := by
  rw [rowMajor, linearIndex, (flatten_rows (w := Config.width) (by simp)).2 x y h.1, pb.pixel_of_inGrid h]
  simp [h.1, h.2]

/-- The output's list holds every pixel once. -/
theorem PixelBuffer.rowMajor_length (pb : PixelBuffer) : pb.rowMajor.length = Config.width * Config.height := by
  rw [rowMajor, (flatten_rows (w := Config.width) (by simp)).1]
  simp [Nat.mul_comm]

/-- A byte placed at an address the memory has. -/
theorem placeByte_eq {a : Nat} (h : a < Config.memSize) (v : Byte) (s : State) :
    placeByte a v s = { s with mem := s.mem.write a v } := by
  rw [placeByte, memWrite_eq_some.2 ⟨h, rfl⟩]
  rfl

/-- Everything placing a word does where both its bytes have a place: the two writes, the status Running, and the stop
predicate kept where it does not hold in the state so placed, `never` where it does; so none holds there. -/
theorem placeWord_eq {s : State} (h : s.pc.toNat + 1 < Config.memSize) (w : Word) :
    ∃ stop, placeWord w s =
        { s with status := .running, stop := stop,
                 mem := (s.mem.write s.pc.toNat (highByte w)).write (s.pc.toNat + 1) (lowByte w) } ∧
      (s.stop.holds { placeWord w s with stop := s.stop } = false → stop = s.stop) ∧
      (s.stop.holds { placeWord w s with stop := s.stop } = true → stop = .never) ∧
      (placeWord w s).stop.holds (placeWord w s) = false := by
  have hlo : s.pc.toNat < Config.memSize := by omega
  simp only [placeWord, placeByte_eq h, placeByte_eq hlo]
  split
  · next hc => exact ⟨.never, rfl, fun h => absurd (h.symm.trans hc) (by decide), fun _ => rfl, rfl⟩
  · next hc => exact ⟨s.stop, rfl, fun _ => rfl, fun h => absurd h hc, by simpa using hc⟩

end Sys2Proof.Machine
end

