-- ==== Sys2Proof/Laws/PerInstr.lean ====
section
/-!
SUPPORT. Statements about every instruction as syntax, one lemma a constructor: the word of an instruction is one that its
own row of R65 selects.
-/
namespace Sys2Proof.Laws.OwnRow

/-- Some row of R65 bears the instruction's mnemonic and selects its word. -/
def Statement (i : Instr) : Prop := ∃ r ∈ opcodeRows, r.mnemonic = i.mnemonic ∧ r.selects (encode i) = true

/-- The bits of a row survive the fields placed beside them where mask and fields do not overlap. -/
theorem selects_of_fields (m : String) (bits mask fields : Word) (h : fields &&& mask = 0#16)
    (hb : bits &&& mask = bits) : OpcodeRow.selects ⟨m, bits, mask⟩ (bits ||| fields) = true := by
  simp only [OpcodeRow.selects, decide_eq_true_eq]
  rw [show (bits ||| fields) &&& mask = (bits &&& mask) ||| (fields &&& mask) by
    ext k hk; simp; cases bits[k] <;> cases fields[k] <;> cases mask[k] <;> rfl]
  rw [h, hb]
  simp

theorem placeX_mask (x : Nat) : placeX x &&& 0xF000#16 = 0#16 := by
  unfold placeX
  generalize BitVec.ofNat 4 x = b
  revert b
  decide

theorem placeY_mask (y : Nat) : placeY y &&& 0xF000#16 = 0#16 := by
  unfold placeY
  generalize BitVec.ofNat 4 y = b
  revert b
  decide

theorem placeN_mask (n : Nat) : placeN n &&& 0xF000#16 = 0#16 := by
  unfold placeN
  generalize BitVec.ofNat 4 n = b
  revert b
  decide

theorem placeKK_mask (kk : Byte) : placeKK kk &&& 0xF000#16 = 0#16 := by
  revert kk
  decide +kernel

theorem placeNNN_mask (nnn : Address12) : placeNNN nnn &&& 0xF000#16 = 0#16 := by
  revert nnn
  decide +kernel

theorem or_mask {a b m : Word} (ha : a &&& m = 0#16) (hb : b &&& m = 0#16) : (a ||| b) &&& m = 0#16 := by
  rw [show (a ||| b) &&& m = (a &&& m) ||| (b &&& m) by
    ext k hk; simp; cases a[k] <;> cases b[k] <;> cases m[k] <;> rfl]
  rw [ha, hb]
  rfl

theorem clear : Statement .clear := ⟨⟨"CLEAR", 0x00E0#16, 0xFFFF#16⟩, by simp [opcodeRows], rfl, by decide⟩

theorem setIndex (nnn : Address12) : Statement (.setIndex nnn) :=
  ⟨⟨"SET-INDEX", 0xA000#16, 0xF000#16⟩, by simp [opcodeRows], rfl,
    selects_of_fields _ _ _ _ (placeNNN_mask nnn) (by decide)⟩

theorem setRegister (x : Nat) (kk : Byte) : Statement (.setRegister x kk) :=
  ⟨⟨"SET-REGISTER", 0x6000#16, 0xF000#16⟩, by simp [opcodeRows], rfl, by
    rw [encode, BitVec.or_assoc]
    exact selects_of_fields _ _ _ _ (or_mask (placeX_mask x) (placeKK_mask kk)) (by decide)⟩

theorem addImmediate (x : Nat) (kk : Byte) : Statement (.addImmediate x kk) :=
  ⟨⟨"ADD-IMMEDIATE", 0x7000#16, 0xF000#16⟩, by simp [opcodeRows], rfl, by
    rw [encode, BitVec.or_assoc]
    exact selects_of_fields _ _ _ _ (or_mask (placeX_mask x) (placeKK_mask kk)) (by decide)⟩

theorem draw (x y n : Nat) : Statement (.draw x y n) :=
  ⟨⟨"DRAW", 0xD000#16, 0xF000#16⟩, by simp [opcodeRows], rfl, by
    rw [encode, BitVec.or_assoc, BitVec.or_assoc]
    exact selects_of_fields _ _ _ _ (or_mask (placeX_mask x) (or_mask (placeY_mask y) (placeN_mask n))) (by decide)⟩

end Sys2Proof.Laws.OwnRow
end

