-- ==== Sys2Proof/Laws/Sprite.lean ====
section
/-!
SUPPORT. Everything drawing a sprite can come to (spec R121 to R126): with no fault the buffer xor the covered pixels, else
the first read fault or the first toggle outside the grid, and one of the three always (`drawSprite_cases`).
-/
namespace Sys2Proof.Machine

/-- Columns whose set bits fall in the grid turn over exactly the pixels they cover. -/
theorem drawColumns_of_fit (b : Byte) (x0 y : Nat) (cs : List Nat) (hnd : cs.Nodup) (s : State)
    (h : ∀ c ∈ cs, spriteBit b c = true → InGrid (x0 + c) y) :
    ∃ pb, forEach cs (drawColumn b x0 y) s = .done { s with pixels := pb } ∧
      ∀ X Y, pb.pixel X Y =
        (s.pixels.pixel X Y).map (xor · (cs.any fun c => decide (X = x0 + c ∧ Y = y) && spriteBit b c)) := by
  induction cs generalizing s with
  | nil => exact ⟨s.pixels, rfl, fun X Y => by simp⟩
  | cons c cs ih =>
    obtain ⟨hc, hnd⟩ := List.nodup_cons.1 hnd
    by_cases hb : spriteBit b c = true
    · have hg := h c (by simp) hb
      have hhead : drawColumn b x0 y c s = .done { s with pixels := s.pixels.turnOver (x0 + c) y hg } := by
        rw [drawColumn, if_pos hb]
        exact toggle_of_inGrid hg s
      rw [forEach_cons, hhead, Effect.andThen_done]
      obtain ⟨pb, hdone, hpix⟩ :=
        ih hnd { s with pixels := s.pixels.turnOver (x0 + c) y hg } (fun d hd => h d (by simp [hd]))
      refine ⟨pb, hdone, fun X Y => ?_⟩
      rw [hpix, PixelBuffer.pixel_turnOver]
      by_cases hX : X = x0 + c ∧ Y = y
      · have hrest : (cs.any fun c => decide (X = x0 + c ∧ Y = y) && spriteBit b c) = false := by
          rw [List.any_eq_false]
          intro d hd
          have : d ≠ c := fun e => hc (e ▸ hd)
          have : ¬ (X = x0 + d ∧ Y = y) := by omega
          simp [this]
        rw [hrest]
        simp only [List.any_cons, hX, hb]
        simp
        rfl
      · simp only [List.any_cons, hX]
        simp
    · have hhead : drawColumn b x0 y c s = .done s := by rw [drawColumn, if_neg hb]
      rw [forEach_cons, hhead, Effect.andThen_done]
      obtain ⟨pb, hdone, hpix⟩ := ih hnd s (fun d hd => h d (by simp [hd]))
      exact ⟨pb, hdone, fun X Y => by rw [hpix]; simp [hb]⟩

/-- Rows that are readable and fit turn over exactly the pixels they cover. -/
theorem drawRows_of_safe (x0 y0 : Nat) (rs : List Nat) (hnd : rs.Nodup) (s : State)
    (h : ∀ r ∈ rs, RowReadable s r ∧ RowFits s x0 y0 r) :
    ∃ pb, forEach rs (drawRow x0 y0) s = .done { s with pixels := pb } ∧
      ∀ X Y, pb.pixel X Y = (s.pixels.pixel X Y).map (xor · (rs.any fun r => spriteColumns.any fun c =>
        decide (X = x0 + c ∧ Y = y0 + r) && spriteBit (spriteByte s r) c)) := by
  induction rs generalizing s with
  | nil => exact ⟨s.pixels, rfl, fun X Y => by simp⟩
  | cons r rs ih =>
    obtain ⟨hr, hnd⟩ := List.nodup_cons.1 hnd
    obtain ⟨hread, hfits⟩ := h r (by simp)
    obtain ⟨pb, hrow, hpix⟩ := drawColumns_of_fit (spriteByte s r) x0 (y0 + r) spriteColumns List.nodup_range s
      (fun c hc hb => hfits c (List.mem_range.1 hc) hb)
    have hhead : drawRow x0 y0 r s = .done { s with pixels := pb } := by
      rw [drawRow, memRead_eq_ok.2 ⟨hread, rfl⟩]
      exact hrow
    rw [forEach_cons, hhead, Effect.andThen_done]
    obtain ⟨pb', hdone, hpix'⟩ := ih hnd { s with pixels := pb } (fun q hq => h q (by simp [hq]))
    refine ⟨pb', hdone, fun X Y => ?_⟩
    rw [hpix', show spriteByte { s with pixels := pb } = spriteByte s from rfl, hpix]
    simp only [Option.map_map, List.any_cons]
    congr 1
    funext b
    simp only [Function.comp]
    by_cases hY : Y = y0 + r
    · have hrest : (rs.any fun q => spriteColumns.any fun c =>
          decide (X = x0 + c ∧ Y = y0 + q) && spriteBit (spriteByte s q) c) = false := by
        rw [List.any_eq_false]
        intro q hq
        have : q ≠ r := fun e => hr (e ▸ hq)
        have : Y ≠ y0 + q := by omega
        simp [this]
      rw [hrest]
      simp
    · have hhere : (spriteColumns.any fun c =>
          decide (X = x0 + c ∧ Y = y0 + r) && spriteBit (spriteByte s r) c) = false := by
        rw [List.any_eq_false]
        intro c _
        simp [hY]
      rw [hhere]
      simp

/-- A safe sprite draws without a fault: the buffer becomes the buffer xor the pixels it covers (R126). -/
theorem drawSprite_of_safe {x0 y0 n : Nat} {s : State} (h : SpriteSafe s x0 y0 n) :
    ∃ pb, drawSprite x0 y0 n s = .done { s with pixels := pb } ∧
      ∀ X Y, pb.pixel X Y = (s.pixels.pixel X Y).map (xor · (spriteCovers s x0 y0 n X Y)) :=
  drawRows_of_safe x0 y0 (rowsOperand n) List.nodup_range s (fun r hr => h r (List.mem_range.1 hr))

/-- The first column with a set bit outside the grid ends its row with OUT_OF_BOUNDS_DRAW. -/
theorem drawColumns_of_first_outside {b : Byte} {x0 y c k : Nat} (s : State) (hk : c < k)
    (hbefore : ∀ c', c' < c → spriteBit b c' = true → InGrid (x0 + c') y) (hb : spriteBit b c = true)
    (hout : ¬ InGrid (x0 + c) y) :
    ∃ pb, forEach (List.range k) (drawColumn b x0 y) s = .raised (.outOfBoundsDraw (x0 + c) y) { s with pixels := pb } := by
  obtain ⟨m, rfl⟩ : ∃ m, k = c + (1 + m) := ⟨k - c - 1, by omega⟩
  obtain ⟨pb, hdone, -⟩ :=
    drawColumns_of_fit b x0 y (List.range c) List.nodup_range s (fun c' hc' => hbefore c' (List.mem_range.1 hc'))
  have hhead : drawColumn b x0 y c { s with pixels := pb } =
      .raised (.outOfBoundsDraw (x0 + c) y) { s with pixels := pb } := by
    rw [drawColumn, if_pos hb]
    exact toggle_of_not_inGrid hout _
  refine ⟨pb, ?_⟩
  rw [List.range_add, forEach_append, hdone, Effect.andThen_done, List.range_add, List.map_append]
  simp [hhead]

/-- A row that raises a fault after safe rows ends the sprite with that fault. -/
theorem drawSprite_of_row_fault {x0 y0 r n : Nat} {s : State} (hr : r < n) (h : SpriteSafe s x0 y0 r) {c : Cause}
    (hrow : ∀ pb, ∃ pb', drawRow x0 y0 r { s with pixels := pb } = .raised c { s with pixels := pb' }) :
    ∃ pb, drawSprite x0 y0 n s = .raised c { s with pixels := pb } := by
  obtain ⟨m, rfl⟩ : ∃ m, n = r + (1 + m) := ⟨n - r - 1, by omega⟩
  obtain ⟨pb, hdone, -⟩ := drawSprite_of_safe h
  obtain ⟨pb', hfault⟩ := hrow pb
  refine ⟨pb', ?_⟩
  rw [drawSprite, rowsOperand, List.range_add, forEach_append,
    show forEach (List.range r) (drawRow x0 y0) s = _ from hdone, Effect.andThen_done, List.range_add, List.map_append]
  simp [hfault]

/-- The first row whose read faults ends the sprite with that fault (R122, R125). -/
theorem drawSprite_of_read_fault {x0 y0 r n : Nat} {s : State} (hr : r < n) (h : SpriteSafe s x0 y0 r) {c : Cause}
    (hc : memRead (spriteAddress s r) s = .error c) : ∃ pb, drawSprite x0 y0 n s = .raised c { s with pixels := pb } :=
  drawSprite_of_row_fault hr h fun pb => ⟨pb, by
    rw [drawRow, show memRead (spriteAddress { s with pixels := pb } r) { s with pixels := pb } = .error c from hc]
    rfl⟩

/-- The first set bit outside the grid ends the sprite with OUT_OF_BOUNDS_DRAW (R124, R125). -/
theorem drawSprite_of_toggle_fault {x0 y0 r n c : Nat} {s : State} (hr : r < n) (h : SpriteSafe s x0 y0 r)
    (hread : RowReadable s r) (hc : c < Config.spriteWidth)
    (hbefore : ∀ c', c' < c → spriteBit (spriteByte s r) c' = true → InGrid (x0 + c') (y0 + r))
    (hb : spriteBit (spriteByte s r) c = true) (hout : ¬ InGrid (x0 + c) (y0 + r)) :
    ∃ pb, drawSprite x0 y0 n s = .raised (.outOfBoundsDraw (x0 + c) (y0 + r)) { s with pixels := pb } :=
  drawSprite_of_row_fault hr h fun pb => by
    obtain ⟨pb', hfault⟩ := drawColumns_of_first_outside { s with pixels := pb } hc hbefore hb hout
    refine ⟨pb', ?_⟩
    rw [drawRow, show memRead (spriteAddress { s with pixels := pb } r) { s with pixels := pb } = .ok (spriteByte s r)
      from memRead_eq_ok.2 ⟨hread, rfl⟩, need_ok]
    exact hfault

/-- Every sprite is safe, or has a first row whose read faults, or a first set bit outside the grid. -/
theorem drawSprite_cases (x0 y0 n : Nat) (s : State) :
    SpriteSafe s x0 y0 n ∨
    (∃ r c, r < n ∧ SpriteSafe s x0 y0 r ∧ memRead (spriteAddress s r) s = .error c) ∨
    (∃ r c, r < n ∧ c < Config.spriteWidth ∧ SpriteSafe s x0 y0 r ∧ RowReadable s r ∧
      (∀ c', c' < c → spriteBit (spriteByte s r) c' = true → InGrid (x0 + c') (y0 + r)) ∧
      spriteBit (spriteByte s r) c = true ∧ ¬ InGrid (x0 + c) (y0 + r)) := by
  classical
  by_cases h : SpriteSafe s x0 y0 n
  · exact .inl h
  · right
    have hex : ∃ r, r < n ∧ ¬ (RowReadable s r ∧ RowFits s x0 y0 r) := by
      simpa only [SpriteSafe, not_forall, exists_prop] using h
    obtain ⟨hr, hbad⟩ := Nat.find_spec hex
    have hsafe : SpriteSafe s x0 y0 (Nat.find hex) := fun q hq => by
      by_contra hn
      exact Nat.find_min hex hq ⟨by omega, hn⟩
    generalize Nat.find hex = r at hr hbad hsafe
    by_cases hread : RowReadable s r
    · right
      have hexc : ∃ c, c < Config.spriteWidth ∧ spriteBit (spriteByte s r) c = true ∧ ¬ InGrid (x0 + c) (y0 + r) := by
        have hfit : ¬ RowFits s x0 y0 r := fun h => hbad ⟨hread, h⟩
        simpa only [RowFits, not_forall, exists_prop] using hfit
      obtain ⟨hc, hb, hout⟩ := Nat.find_spec hexc
      refine ⟨r, Nat.find hexc, hr, hc, hsafe, hread, fun c' hc' hb' => ?_, hb, hout⟩
      by_contra hn
      exact Nat.find_min hexc hc' ⟨by omega, hb', hn⟩
    · left
      refine ⟨r, ?_⟩
      cases he : memRead (spriteAddress s r) s with
      | error c => exact ⟨c, hr, hsafe, rfl⟩
      | ok b => exact absurd (memRead_eq_ok.1 he).1 hread

end Sys2Proof.Machine
end

