-- ==== Sys2Proof/Laws/Step.lean ====
section
/-!
SUPPORT. What an execute step and a step can do, said once: every meaning answers a next state, and a step that answers one
comes from one of the cases of spec R80.
-/
namespace Sys2Proof.Machine

/-! ### The execute step -/

theorem exec_clear (s : State) : exec .clear s = .next (advance s) := rfl

theorem exec_setIndex (nnn : Address12) (s : State) :
    exec (.setIndex nnn) s = .next (advance (writeIndex (addressOperand nnn) s)) := rfl

theorem exec_setRegister (x : Nat) (kk : Byte) (s : State) : exec (.setRegister x kk) s = finish (writeReg x kk s) := rfl

theorem exec_addImmediate (x : Nat) (kk : Byte) (s : State) :
    exec (.addImmediate x kk) s = finish (need (readReg x s) s fun a => writeReg x (a + kk) s) := rfl

/-- DRAW with two registers that can be read draws the sprite at their values. -/
theorem exec_draw {x y : Nat} {s : State} {vx vy : Byte} (hx : readReg x s = .ok vx) (hy : readReg y s = .ok vy)
    (n : Nat) : exec (.draw x y n) s = finish (drawSprite vx.toNat vy.toNat n s) := by
  show execDraw x y n s = _
  simp only [execDraw, hx, hy, need_ok, originOperand]

/-- Everything DRAW can do: the sprite at the two registers' values, or the fault of an index out of range. -/
theorem exec_draw_cases (x y n : Nat) (s : State) :
    (∃ vx vy, readReg x s = .ok vx ∧ readReg y s = .ok vy ∧
      exec (.draw x y n) s = finish (drawSprite vx.toNat vy.toNat n s)) ∨
    (∃ c, (readReg x s = .error c ∨ (∃ vx, readReg x s = .ok vx) ∧ readReg y s = .error c) ∧
      exec (.draw x y n) s = .next (takeFault c s)) := by
  cases hx : readReg x s with
  | error c =>
    refine .inr ⟨c, .inl rfl, ?_⟩
    show execDraw x y n s = _
    simp only [execDraw, hx, need_error, finish_raised]
  | ok vx =>
    cases hy : readReg y s with
    | error c =>
      refine .inr ⟨c, .inr ⟨⟨vx, rfl⟩, rfl⟩, ?_⟩
      show execDraw x y n s = _
      simp only [execDraw, hx, hy, need_ok, need_error, finish_raised]
    | ok vy => exact .inl ⟨vx, vy, rfl, rfl, exec_draw hx hy n⟩

/-- Every meaning is the end of an effect, so it always answers a next state. -/
theorem exec_eq_finish (i : Instr) (s : State) : ∃ e, exec i s = finish e := by
  cases i with
  | clear => exact ⟨.done s, rfl⟩
  | setIndex nnn => exact ⟨.done (writeIndex (addressOperand nnn) s), rfl⟩
  | setRegister x kk => exact ⟨_, exec_setRegister x kk s⟩
  | addImmediate x kk => exact ⟨_, exec_addImmediate x kk s⟩
  | draw x y n => exact ⟨_, (rfl : execDraw x y n s = _)⟩

theorem exec_answers_next (i : Instr) (s : State) : ∃ t, exec i s = .next t := by
  obtain ⟨e, he⟩ := exec_eq_finish i s
  cases e <;> exact ⟨_, he⟩

/-- SET-REGISTER in the file's range, and outside it. -/
theorem exec_setRegister_cases (x : Nat) (kk : Byte) (s : State) :
    (∃ h : x < Config.numRegs, exec (.setRegister x kk) s = .next (advance { s with v := s.v.set x kk })) ∨
    (Config.numRegs ≤ x ∧ exec (.setRegister x kk) s = .next (takeFault (.registerIndexOutOfRange x) s)) := by
  rw [exec_setRegister]
  by_cases h : x < Config.numRegs
  · exact .inl ⟨h, by rw [writeReg_of_lt h, finish_done]⟩
  · exact .inr ⟨by omega, by rw [writeReg_of_ge (by omega), finish_raised]⟩

/-- ADD-IMMEDIATE in the file's range, and outside it. -/
theorem exec_addImmediate_cases (x : Nat) (kk : Byte) (s : State) :
    (∃ h : x < Config.numRegs, exec (.addImmediate x kk) s = .next (advance { s with v := s.v.set x (s.v[x] + kk) })) ∨
    (Config.numRegs ≤ x ∧ exec (.addImmediate x kk) s = .next (takeFault (.registerIndexOutOfRange x) s)) := by
  rw [exec_addImmediate]
  by_cases h : x < Config.numRegs
  · exact .inl ⟨h, by rw [readReg_of_lt h, need_ok, writeReg_of_lt h, finish_done]⟩
  · exact .inr ⟨by omega, by rw [readReg_of_ge (by omega), need_error, finish_raised]⟩

/-- Everything DRAW leaves alone: the next state is the old one with some pixels, advanced or faulted. -/
theorem exec_draw_pixelsAside {x y n : Nat} {s t : State} (h : exec (.draw x y n) s = .next t) :
    ∃ pb, t = advance { s with pixels := pb } ∨ ∃ c, t = takeFault c { s with pixels := pb } := by
  rcases exec_draw_cases x y n s with ⟨vx, vy, -, -, hd⟩ | ⟨c, -, hd⟩
  · rw [hd] at h
    obtain ⟨pb, hpb⟩ := drawSprite_pixelsAside vx.toNat vy.toNat n s
    rcases finish_eq_next.1 h with ⟨u, hu, rfl⟩ | ⟨c, u, hu, rfl⟩ <;> rw [hu] at hpb <;> subst hpb
    · exact ⟨pb, .inl rfl⟩
    · exact ⟨pb, .inr ⟨c, rfl⟩⟩
  · rw [hd] at h
    cases h
    exact ⟨s.pixels, .inr ⟨c, rfl⟩⟩

/-- Everything any execute step leaves alone: memory and the stop predicate always; the status with the advance of `pc`,
or `pc` with a fault. -/
theorem exec_frame {i : Instr} {s t : State} (h : exec i s = .next t) :
    t.mem = s.mem ∧ t.stop = s.stop ∧
      ((t.status = s.status ∧ t.pc = s.pc + 2#16) ∨ ((∃ c, t.status = .faulted c) ∧ t.pc = s.pc)) := by
  cases i with
  | clear =>
    cases h
    simp
  | setIndex nnn =>
    cases h
    simp
  | setRegister x kk =>
    rcases exec_setRegister_cases x kk s with ⟨_, hd⟩ | ⟨_, hd⟩ <;> rw [hd] at h <;> cases h <;> simp
  | addImmediate x kk =>
    rcases exec_addImmediate_cases x kk s with ⟨_, hd⟩ | ⟨_, hd⟩ <;> rw [hd] at h <;> cases h <;> simp
  | draw x y n =>
    obtain ⟨pb, rfl | ⟨c, rfl⟩⟩ := exec_draw_pixelsAside h <;> simp

/-- DRAW in two states with the same registers that a `DrawsAlike` relation relates ends alike, in related states. -/
theorem exec_draw_rel {R : State → State → Prop} (hR : DrawsAlike R)
    (hadvance : ∀ a b, R a b → R (advance a) (advance b)) (hfault : ∀ c a b, R a b → R (takeFault c a) (takeFault c b))
    {x y n : Nat} {s s' t : State} (hs : R s s') (hx : readReg x s' = readReg x s) (hy : readReg y s' = readReg y s)
    (h : exec (.draw x y n) s = .next t) : ∃ u, exec (.draw x y n) s' = .next u ∧ R t u := by
  rcases exec_draw_cases x y n s with ⟨vx, vy, hvx, hvy, hd⟩ | ⟨c, hc, hd⟩
  · rw [hd] at h
    rw [exec_draw (hx.trans hvx) (hy.trans hvy)]
    exact finish_rel (drawSprite_rel hR _ _ _ hs) hadvance hfault h
  · rw [hd] at h
    cases h
    refine ⟨takeFault c s', ?_, hfault c s s' hs⟩
    show execDraw x y n s' = _
    rcases hc with hc | ⟨⟨vx, hvx⟩, hc⟩
    · simp only [execDraw, hx.trans hc, need_error, finish_raised]
    · simp only [execDraw, hx.trans hvx, hy.trans hc, need_ok, need_error, finish_raised]

/-! ### The step -/

theorem step_of_running {s : State} (h : s.status = .running) : step s = cycle s := by
  simp only [step, h]

/-- Everything a step that answers a next state can have done (R80): it was Running, and it stopped, faulted in the fetch,
faulted in the decode, or ran the instruction it decoded. -/
theorem step_eq_next {s t : State} :
    step s = .next t ↔ s.status = .running ∧
      ((s.stop.holds s = true ∧ t = takeStop s) ∨
       (s.stop.holds s = false ∧ ∃ c, fetchWord s = .error c ∧ t = takeFault c s) ∨
       (s.stop.holds s = false ∧ ∃ w, fetchWord s = .ok w ∧ decode w = .unsupportedInstruction w ∧
          t = takeFault (.unsupportedInstruction w) s) ∨
       (s.stop.holds s = false ∧ ∃ i, s.Fetches i ∧ exec i s = .next t)) := by
  cases hs : s.status with
  | stopped => simp [step, hs]
  | faulted c => simp [step, hs]
  | running =>
    rw [step_of_running hs, cycle]
    cases hc : s.stop.holds s with
    | true => simp [eq_comm]
    | false =>
      simp only [Bool.false_eq_true, if_false, fetchAndRun, State.Fetches]
      cases hf : fetchWord s with
      | error c => simp [eq_comm]
      | ok w =>
        cases hd : decode w with
        | unsupportedInstruction raw =>
          have := decode_unsupported_word hd
          subst this
          simp [runWord, hd, eq_comm]
        | decoded i => simp [runWord, hd]

/-- A step that answers a next state was taken from Running. -/
theorem running_of_step {s t : State} (h : step s = .next t) : s.status = .running := (step_eq_next.1 h).1

/-- A running core's step always answers a next state. -/
theorem step_of_running_answers_next {s : State} (hs : s.status = .running) : ∃ t, step s = .next t := by
  cases hc : s.stop.holds s with
  | true => exact ⟨_, step_eq_next.2 ⟨hs, .inl ⟨hc, rfl⟩⟩⟩
  | false =>
    cases hf : fetchWord s with
    | error c => exact ⟨_, step_eq_next.2 ⟨hs, .inr (.inl ⟨hc, c, hf, rfl⟩)⟩⟩
    | ok w =>
      cases hd : decode w with
      | unsupportedInstruction raw =>
        have := decode_unsupported_word hd
        subst this
        exact ⟨_, step_eq_next.2 ⟨hs, .inr (.inr (.inl ⟨hc, _, hf, hd, rfl⟩))⟩⟩
      | decoded i =>
        obtain ⟨t, ht⟩ := exec_answers_next i s
        exact ⟨t, step_eq_next.2 ⟨hs, .inr (.inr (.inr ⟨hc, i, ⟨w, hf, hd⟩, ht⟩))⟩⟩

/-- No step changes the memory or the stop predicate. -/
theorem step_frame {s t : State} (h : step s = .next t) : t.mem = s.mem ∧ t.stop = s.stop := by
  obtain ⟨-, ⟨-, rfl⟩ | ⟨-, c, -, rfl⟩ | ⟨-, w, -, -, rfl⟩ | ⟨-, i, -, h⟩⟩ := step_eq_next.1 h
  · simp
  · simp
  · simp
  · exact ⟨(exec_frame h).1, (exec_frame h).2.1⟩

/-! ### Runs -/

theorem Steps.one {s t : State} (h : step s = .next t) : Steps 1 s t := .more h (.none t)

theorem Steps.trans {j k : Nat} {s t u : State} (h : Steps j s t) (h' : Steps k t u) : Steps (k + j) s u := by
  induction h with
  | none => exact h'
  | more first _ ih => exact .more first (ih h')

/-- A run from Running to a status that is not has a last step. -/
theorem Steps.last {k : Nat} {s t : State} (h : Steps k s t) (hs : s.status = .running) (ht : t.status ≠ .running) :
    ∃ j u, Steps j s u ∧ step u = .next t := by
  induction h with
  | none => exact absurd hs ht
  | @more k s u t first later ih =>
    by_cases hu : u.status = .running
    · obtain ⟨j, w, hw, hlast⟩ := ih hu ht
      exact ⟨_, w, .more first hw, hlast⟩
    · cases later with
      | none => exact ⟨0, s, .none s, first⟩
      | more f _ => exact absurd (running_of_step f) hu

/-- A property that every step keeps holds of every state a run reaches. -/
theorem Steps.induct {P : State → Prop} (keep : ∀ s t, P s → step s = .next t → P t) {k : Nat} {s t : State}
    (h : Steps k s t) (hs : P s) : P t := by
  induction h with
  | none => exact hs
  | more first later ih => exact ih (keep _ _ hs first)

/-- The host's `run` of k steps is a run of k steps. -/
theorem run_eq_next {k : Nat} {s t : State} : Sys2Proof.core.run k s = .next t ↔ Steps k s t := by
  induction k generalizing s with
  | zero =>
    constructor
    · intro h
      cases h
      exact .none _
    · rintro ⟨⟩
      rfl
  | succ k ih =>
    constructor
    · intro h
      cases hs : step s with
      | next u =>
        simp only [Host.Core.run, show Sys2Proof.core.step s = .next u from hs] at h
        exact .more hs (ih.1 h)
      | fault r => simp [Host.Core.run, show Sys2Proof.core.step s = .fault r from hs] at h
      | refused r => simp [Host.Core.run, show Sys2Proof.core.step s = .refused r from hs] at h
    · rintro (_ | ⟨first, later⟩)
      simp only [Host.Core.run, show Sys2Proof.core.step s = .next _ from first]
      exact ih.2 later

end Sys2Proof.Machine
end

