-- ==== Sys2Proof/Laws/StopCondition.lean ====
section
/-!
SUPPORT. Holding the host's stop predicate as data loses none: every predicate over the contents of the machine is the
meaning of a `StopCondition` (log 2).
-/
namespace Sys2Proof.Machine

/-- The condition that holds in every state. -/
def StopCondition.always : StopCondition := .neg .never

/-- A predicate that depends only on which of a list of conditions hold is the meaning of a condition. -/
theorem StopCondition.expressible_of_atoms (atoms : List StopCondition) (p : State → Prop)
    (hp : ∀ s t, (∀ c ∈ atoms, c.holds s = c.holds t) → (p s ↔ p t)) :
    ∃ c : StopCondition, ∀ s, c.holds s = true ↔ p s := by
  induction atoms generalizing p with
  | nil =>
    have hall : ∀ s, p s ↔ p State.reset := fun s => hp s _ (by simp)
    by_cases h : p State.reset
    · exact ⟨always, fun s => by simp [always, holds, hall s, h]⟩
    · exact ⟨never, fun s => by simp [holds, hall s, h]⟩
  | cons a atoms ih =>
    have part (b : Bool) : ∃ c : StopCondition, ∀ s, c.holds s = true ↔
        ∃ t, a.holds t = b ∧ (∀ c ∈ atoms, c.holds t = c.holds s) ∧ p t :=
      ih _ fun s t hst => by
        constructor <;> rintro ⟨u, hu, hagree, hpu⟩
        · exact ⟨u, hu, fun c hc => (hagree c hc).trans (hst c hc), hpu⟩
        · exact ⟨u, hu, fun c hc => (hagree c hc).trans (hst c hc).symm, hpu⟩
    obtain ⟨cT, hT⟩ := part true
    obtain ⟨cF, hF⟩ := part false
    have back {s t : State} (ha : a.holds t = a.holds s) (hagree : ∀ c ∈ atoms, c.holds t = c.holds s) : p t ↔ p s :=
      hp t s fun c hc => by
        rcases List.mem_cons.1 hc with rfl | hc
        · exact ha
        · exact hagree c hc
    refine ⟨.either (.both a cT) (.both (.neg a) cF), fun s => ?_⟩
    cases has : a.holds s with
    | true =>
      simp only [holds, has, Bool.true_and, Bool.not_true, Bool.false_and, Bool.or_false, hT]
      exact ⟨fun ⟨t, ht, hagree, hpt⟩ => (back (ht.trans has.symm) hagree).1 hpt, fun h => ⟨s, has, fun _ _ => rfl, h⟩⟩
    | false =>
      simp only [holds, has, Bool.false_and, Bool.not_false, Bool.true_and, Bool.false_or, hF]
      exact ⟨fun ⟨t, ht, hagree, hpt⟩ => (back (ht.trans has.symm) hagree).1 hpt, fun h => ⟨s, has, fun _ _ => rfl, h⟩⟩

/-- Every value of a width. -/
def allBitVecs (n : Nat) : List (BitVec n) := (List.range (2 ^ n)).map (BitVec.ofNat n)

theorem mem_allBitVecs {n : Nat} (b : BitVec n) : b ∈ allBitVecs n :=
  List.mem_map.2 ⟨b.toNat, List.mem_range.2 b.isLt, by simp⟩

/-- The tests of one piece of the machine's contents, all of them. -/
def StopCondition.atoms : List StopCondition :=
  (allBitVecs 16).map .pcIs ++ (allBitVecs 16).map .indexIs ++
  ((List.finRange Config.numRegs).flatMap fun i => (allBitVecs 8).map (.regIs i)) ++
  ((List.finRange Config.width).flatMap fun x => (List.finRange Config.height).map (.pixelOn x)) ++
  ((List.range Config.memSize).flatMap fun a => (allBitVecs 8).map (.byteIs a))

/-- Every predicate over the contents of the machine (registers, index register, instruction pointer, pixels and the 4095
bytes of memory) is the meaning of a stop condition. -/
theorem StopCondition.expressible (p : State → Prop)
    (hp : ∀ s t : State, s.v = t.v → s.index = t.index → s.pc = t.pc → s.pixels = t.pixels →
      (∀ a, a < Config.memSize → s.mem.read a = t.mem.read a) → (p s ↔ p t)) :
    ∃ c : StopCondition, ∀ s, c.holds s = true ↔ p s := by
  refine expressible_of_atoms atoms p fun s t h => hp s t ?_ ?_ ?_ ?_ ?_
  · apply Vector.ext
    intro i hi
    have := h (.regIs ⟨i, hi⟩ t.v[i]) (by simp [atoms, mem_allBitVecs])
    simpa [holds] using this
  · have := h (.indexIs t.index) (by simp [atoms, mem_allBitVecs])
    simpa [holds] using this
  · have := h (.pcIs t.pc) (by simp [atoms, mem_allBitVecs])
    simpa [holds] using this
  · apply Vector.ext
    intro y hy
    apply Vector.ext
    intro x hx
    have := h (.pixelOn ⟨x, hx⟩ ⟨y, hy⟩) (by simp [atoms])
    simpa [holds] using this
  · intro a ha
    have := h (.byteIs a (t.mem.read a)) (by
      have : a < 4095 := ha
      simp [atoms, mem_allBitVecs, this])
    simpa [holds] using this

end Sys2Proof.Machine
end

