-- ==== Sys2Proof/Tests/Slice0.lean ====
section
/-!
SUPPORT. The model's own tests. Expected results come from the spec: its encodings (30_encoding.md), its worked examples and
its test vectors (95_test_vectors.md, named at each test). After them, one witness for each statement with hypotheses: a
concrete state and operands that meet them all together, with the boundary values of each clause.
-/
open Sys2Proof Sys2Proof.Machine

namespace Sys2Proof.Tests

/-! ### Helpers -/

/-- The state a step leads to. -/
def after (s : State) : Option State :=
  match step s with
  | .next t => some t
  | .fault _ => none
  | .refused _ => none

/-- The state with bytes stored from an address up. -/
def withBytes (a : Nat) (bs : List Byte) (s : State) : State :=
  { s with mem := (bs.zipIdx a).foldl (fun m c => m.write c.2 c.1) s.mem }

/-- The state with a register's value. -/
def withReg (i : Fin 16) (b : Byte) (s : State) : State := { s with v := s.v.set i b }

/-- The machine after reset with a word at 0x200. -/
def fetching (w : Nat) : State := State.reset.withFetchWord 16 w

/-- The common start of the DRAW vectors: the word at 0x200, two registers, the index register and the bytes there. -/
def drawing (w : Nat) (v0 v1 : Byte) (index : Word) (bs : List Byte) : State :=
  withBytes index.toNat bs { withReg 0 v0 (withReg 1 v1 (fetching w)) with index := index }

/-- The pixels of some coordinates. -/
def pixelsAt (s : State) (cs : List (Nat × Nat)) : List (Option Bool) := cs.map fun c => s.pixels.pixel c.1 c.2

/-! ### WellFormed refuses ill-formed terms -/

theorem test_wf_refuses_register_16_in_setRegister : (Instr.setRegister 16 0#8).wf = false := by decide
theorem test_wf_refuses_register_16_in_addImmediate : (Instr.addImmediate 16 0#8).wf = false := by decide
theorem test_wf_refuses_regX_16_in_draw : (Instr.draw 16 0 0).wf = false := by decide
theorem test_wf_refuses_regY_16_in_draw : (Instr.draw 0 16 0).wf = false := by decide
theorem test_wf_refuses_count_16_in_draw : (Instr.draw 0 0 16).wf = false := by decide
theorem test_wf_accepts_the_largest_operands : (Instr.draw 15 15 15).wf = true ∧ (Instr.setRegister 15 0xFF#8).wf = true := by
  decide

/-! ### Decoding: words written out from R65's patterns, bit 15 first -/

theorem test_decode_clear : decodeTableWord 16 0b0000000011100000 = some .clear := by decide
theorem test_decode_setIndex : decodeTableWord 16 0b1010001000101010 = some (.setIndex 0x22A#12) := by decide
theorem test_decode_setRegister : decodeTableWord 16 0b0110000000001100 = some (.setRegister 0 0x0C#8) := by decide
theorem test_decode_addImmediate : decodeTableWord 16 0b0111101000000101 = some (.addImmediate 10 0x05#8) := by decide
theorem test_decode_draw : decodeTableWord 16 0b1101000100100011 = some (.draw 1 2 3) := by decide

/-- Section 2.1's rows that are unsupported. -/
theorem test_decode_unsupported_words :
    ([0x00E1, 0x00EE, 0x0000, 0x0E00, 0x10E0, 0x1228, 0x2000, 0x3000, 0x4000, 0x5000, 0x8000, 0x9FFF, 0xB123, 0xC0FF,
      0xE09E, 0xF000, 0xFFFF] : List Word).all (fun w => decide (decode w = .unsupportedInstruction w)) = true := by
  decide

/-- Section 2.1's boundary words. -/
theorem test_decode_boundary_words :
    decode 0xA000#16 = .decoded (.setIndex 0#12) ∧ decode 0xAFFF#16 = .decoded (.setIndex 0xFFF#12) ∧
    decode 0x6FFF#16 = .decoded (.setRegister 15 0xFF#8) ∧ decode 0x7F01#16 = .decoded (.addImmediate 15 0x01#8) ∧
    decode 0xD000#16 = .decoded (.draw 0 0 0) ∧ decode 0xDFFF#16 = .decoded (.draw 15 15 15) := by
  decide

theorem test_encode_bytes_high_first : encodeBytes (.draw 0 1 15) = [0xD0#8, 0x1F#8] := by decide
theorem test_decodeBytes_leaves_the_rest :
    decodeBytes [0xA2#8, 0x2A#8, 0x60#8] = .ok (.setIndex 0x22A#12, [0x60#8]) := by rfl

/-! ### The read port: section 2.2 -/

theorem test_read_port_boundaries :
    let s := withBytes 0xFFE [0x5A#8] State.reset
    memRead 79 s = .error (.fontRegionRead 79) ∧ memRead 80 s = .error (.reservedInterpreterRead 80) ∧
    memRead 511 s = .error (.reservedInterpreterRead 511) ∧ memRead 512 s = .ok 0#8 ∧
    memRead 4094 s = .ok 0x5A#8 ∧ memRead 4095 s = .error (.memoryOutOfRange 4095) := by
  refine ⟨rfl, rfl, rfl, rfl, rfl, rfl⟩

/-- Writing 0 takes the entry out again: equal memories are equal data. -/
theorem test_write_of_zero_removes_the_entry :
    Memory.write (Memory.write [(0x200, 1#8), (0x202, 2#8)] 0x201 7#8) 0x201 0#8 = [(0x200, 1#8), (0x202, 2#8)] := by
  decide

/-! ### One step of each instruction -/

/-- F4 and section 2.7: CLEAR leaves drawn pixels on. -/
theorem test_clear_keeps_drawn_pixels :
    let s := { fetching 0x00E0 with
      pixels := (State.reset.pixels.turnOver 0 0 (by decide)).turnOver 63 31 (by decide) }
    (after s).map (fun t => (pixelsAt t [(0, 0), (63, 31), (1, 0)], t.pc, t.status)) =
      some ([some true, some true, some false], 0x202#16, .running) := by
  decide +kernel

/-- F1: the word is 0xA22A, not 0x2AA2. -/
theorem test_setIndex_after_a_big_endian_fetch :
    (after (fetching 0xA22A)).map (fun t => (t.index, t.pc)) = some (0x22A#16, 0x202#16) := by decide +kernel

/-- Section 2.4: 0xFFF is loaded unchecked. -/
theorem test_setIndex_does_not_check_the_address :
    (after { fetching 0xAFFF with index := 0x0123#16 }).map (fun t => (t.index, t.status)) =
      some (0x0FFF#16, .running) := by decide +kernel

/-- Section 2.5. -/
theorem test_setRegister_writes_one_register :
    (after (withReg 14 0x55#8 (fetching 0x6FFF))).map (fun t => (t.v[15], t.v[14], t.v[0], t.pc)) =
      some (0xFF#8, 0x55#8, 0x00#8, 0x202#16) := by decide +kernel

/-- Section 2.6 and S2: 250 + 10 is 4. -/
theorem test_addImmediate_wraps :
    (after (withReg 0 0xFA#8 (fetching 0x700A))).map (fun t => (t.v[0], t.v[15], t.pc)) =
      some (0x04#8, 0x00#8, 0x202#16) := by decide +kernel

/-- Section 2.6: a wrap does not set VF. -/
theorem test_addImmediate_wrap_leaves_vf :
    (after (withReg 5 0x0C#8 (fetching 0x75FF))).map (fun t => (t.v[5], t.v[15])) = some (0x0B#8, 0x00#8) := by
  decide +kernel

/-- D-b, the bits and the advance; D-d would turn one off again. -/
theorem test_draw_maps_bit_7_to_the_left :
    (after (drawing 0xD011 0 0 0x300 [0x81])).map (fun t => (pixelsAt t [(0, 0), (7, 0), (1, 0), (6, 0)], t.pc)) =
      some ([some true, some true, some false, some false], 0x202#16) := by decide +kernel

/-- D-f: the fault at (64, 0) keeps `pc`, and the toggles before it remain. -/
theorem test_draw_off_the_right_edge_faults :
    (after (drawing 0xD011 57 0 0x300 [0xFF])).map (fun t => (t.status, t.pc, pixelsAt t [(57, 0), (63, 0), (0, 1)])) =
      some (.faulted (.outOfBoundsDraw 64 0), 0x200#16, [some true, some true, some false]) := by decide +kernel

/-! ### The step: section 2.3 and the faults of section 2.8 -/

/-- F2: the stop check comes before the first fetch. -/
theorem test_stop_before_the_first_fetch :
    after { State.reset with stop := .pcIs 0x200#16 } =
      some { State.reset with stop := .pcIs 0x200#16, status := .stopped } := by decide +kernel

/-- F5 and S9. -/
theorem test_unsupported_word_changes_only_the_status :
    after (fetching 0x00EE) = some { fetching 0x00EE with status := .faulted (.unsupportedInstruction 0x00EE#16) } := by
  decide +kernel

/-- F6. -/
theorem test_fetch_at_4094_faults_on_its_second_byte :
    (after (withBytes 0xFFE [0x60#8] { State.reset with pc := 0xFFE#16 })).map (fun t => (t.status, t.pc)) =
      some (.faulted (.memoryOutOfRange 4095), 0xFFE#16) := by decide +kernel

/-- F7. -/
theorem test_no_step_from_the_terminal_statuses :
    step { State.reset with status := .stopped } = .fault .stepFromStopped ∧
    step { State.reset with status := .faulted (.fontRegionRead 0) } = .fault (.stepFromFaulted (.fontRegionRead 0)) := by
  refine ⟨rfl, rfl⟩

/-- D-a, D-k, D-l, D-o: no read for 0 rows; the read faults; row 0 drawn before row 1 faults. -/
theorem test_draw_reads :
    (after (drawing 0xD010 200 200 0 [])).map (·.status) = some .running ∧
    (after (drawing 0xD011 0 0 0x04F [])).map (·.status) = some (.faulted (.fontRegionRead 79)) ∧
    (after (drawing 0xD011 0 0 0x050 [])).map (·.status) = some (.faulted (.reservedInterpreterRead 80)) ∧
    (after (drawing 0xD012 0 0 0xFFE [0x01])).map (fun t => (t.status, t.pixels.pixel 7 0)) =
      some (.faulted (.memoryOutOfRange 4095), some true) := by decide +kernel

/-- D-h, D-t, D-u: clear bits are not checked, and coordinates do not wrap. -/
theorem test_draw_coordinates_do_not_wrap :
    (after (drawing 0xD011 200 200 0x300 [0x00])).map (·.status) = some .running ∧
    (after (drawing 0xD011 64 0 0x300 [0x01])).map (·.status) = some (.faulted (.outOfBoundsDraw 71 0)) ∧
    (after (drawing 0xD011 255 255 0x300 [0x80])).map (·.status) = some (.faulted (.outOfBoundsDraw 255 255)) := by
  decide +kernel

/-- The launch of a two-byte image, and R6's longest image. -/
theorem test_launch_places_the_image :
    (launch [0x60#8, 0x01#8] .never).map (fun s => (s.mem, s.pc, s.stop)) =
      some ([(0x200, 0x60#8), (0x201, 0x01#8)], 0x200#16, .never) := by decide +kernel

/-- R30: pixel (x, y) is at y * 64 + x of the output; a running state has none. -/
theorem test_output_is_row_major :
    let s := { State.reset with pixels := State.reset.pixels.turnOver 3 2 (by decide), status := .stopped }
    s.output.bind (·[131]?) = some true ∧ State.reset.output = none := by decide +kernel

/-! ### Witnesses: every statement's hypotheses are met, each clause at its boundaries -/

theorem witness_DecodeDispatchesOnTheTopNibble :
    (0x00E0#16).toNat / 4096 = 0 ∧ (0x0FFF#16).toNat / 4096 = 0 ∧ (0x0FFF#16).toNat ≠ 0x00E0 ∧
    (0x6FFF#16).toNat / 4096 = 6 ∧ (0x7000#16).toNat / 4096 = 7 ∧ (0xAFFF#16).toNat / 4096 = 0xA ∧
    (0xD000#16).toNat / 4096 = 0xD ∧ (0x5FFF#16).toNat / 4096 ∉ [0x0, 0x6, 0x7, 0xA, 0xD] ∧
    (0xFFFF#16).toNat / 4096 ∉ [0x0, 0x6, 0x7, 0xA, 0xD] := by decide

theorem witness_DecodeAgreesWithTheMatchMaskTable :
    (opcodeRows.all fun r => r.selects r.bits) = true ∧
      ⟨"DRAW", 0xD000#16, 0xF000#16⟩ ∈ opcodeRows := by decide

theorem witness_UnmatchedWordsAreUnsupportedAndFatal :
    let s := fetching 0x00EE
    s.status = .running ∧ s.stop.holds s = false ∧ fetchWord s = .ok 0x00EE#16 ∧
    (∀ r ∈ opcodeRows, r.selects 0x00EE#16 = false) ∧ (∀ r ∈ opcodeRows, r.selects 0x0000#16 = false) ∧
    (0x1000#16).toNat / 4096 = 1 ∧ (0x1FFF#16).toNat / 4096 = 1 := by
  refine ⟨rfl, rfl, rfl, by decide, by decide, by decide, by decide⟩

theorem witness_DecodingInvertsEncoding :
    Instr.clear.wf = true ∧ (Instr.setIndex 0xFFF#12).wf = true ∧ (Instr.setRegister 15 0xFF#8).wf = true ∧
    (Instr.addImmediate 15 0xFF#8).wf = true ∧ (Instr.draw 15 15 15).wf = true := by decide

theorem witness_EncodingInvertsDecoding : decode 0xDFFF#16 = .decoded (.draw 15 15 15) := by decide

theorem witness_EveryInstructionIsTwoBytesLong :
    decodeBytes [0x00#8, 0xE0#8, 0x7F#8] = .ok (.clear, [0x7F#8]) := by rfl

theorem witness_ReadPortAppliesTheAccessPolicy :
    (79 < 80) ∧ (80 ≤ 80 ∧ 511 < 0x200) ∧ (0x200 ≤ 0x200 ∧ 4094 < 4095) ∧ 4095 ≤ 4095 := by decide

theorem witness_WritePortStoresExactlyOneByte :
    (withBytes 0x200 [1#8, 0#8, 2#8] State.reset).mem.wf ∧ 0 < 4095 ∧ 4094 < 4095 ∧ 4095 ≤ 4095 := by decide

theorem witness_CanonicalMemoriesThatReadAlikeAreEqual :
    Memory.wf [(0, 1#8), (4094, 2#8)] ∧
    ∀ a, Memory.read [(0, 1#8), (4094, 2#8)] a = Memory.read (Memory.write [(0, 1#8)] 4094 2#8) a := by
  refine ⟨by decide, fun a => rfl⟩

theorem witness_FetchIsBigEndian :
    (0x200 ≤ (fetching 0xA22A).pc.toNat ∧ (fetching 0xA22A).pc.toNat + 1 < 4095) ∧
    0x200 ≤ ({ State.reset with pc := 4093#16 } : State).pc.toNat ∧
    ({ State.reset with pc := 4093#16 } : State).pc.toNat + 1 < 4095 := by decide

theorem witness_FetchFaultChangesOnlyTheStatus :
    let s := { State.reset with pc := 79#16 }
    let u := { State.reset with pc := 4094#16 }
    s.status = .running ∧ s.stop.holds s = false ∧ memRead s.pc.toNat s = .error (.fontRegionRead 79) ∧
    u.status = .running ∧ u.stop.holds u = false ∧ memRead u.pc.toNat u = .ok 0#8 ∧
    memRead (u.pc.toNat + 1) u = .error (.memoryOutOfRange 4095) := by
  refine ⟨rfl, rfl, rfl, rfl, rfl, rfl, rfl⟩

theorem witness_StepRunsTheDecodedInstruction :
    let s := fetching 0xD01F
    s.status = .running ∧ s.stop.holds s = false ∧ memRead s.pc.toNat s = .ok 0xD0#8 ∧
    memRead (s.pc.toNat + 1) s = .ok 0x1F#8 ∧ decode (wordOfBytes 0xD0#8 0x1F#8) = .decoded (.draw 0 1 15) := by
  refine ⟨rfl, rfl, rfl, rfl, by decide⟩

/-- One stop predicate that does not hold where the word is placed, and one that does. -/
theorem witness_APlacedWordIsTheNextInstruction :
    let s := { State.reset with stop := .pcIs 0x202#16 }
    let u := { State.reset with stop := .pcIs 0x200#16 }
    (Instr.draw 15 15 15).wf = true ∧ s.mem.wf ∧ 0x200 ≤ s.pc.toNat ∧ s.pc.toNat + 1 < 4095 ∧
    u.mem.wf ∧ 0x200 ≤ u.pc.toNat ∧ u.pc.toNat + 1 < 4095 ∧
    s.stop.holds { s.withFetchWord 16 (encode (.draw 15 15 15)).toNat with stop := s.stop } = false ∧
    u.stop.holds { u.withFetchWord 16 (encode (.draw 15 15 15)).toNat with stop := u.stop } = true := by decide +kernel

theorem witness_UnsupportedWordChangesOnlyTheStatus :
    let s := fetching 0x1228
    s.status = .running ∧ s.stop.holds s = false ∧ fetchWord s = .ok 0x1228#16 ∧
    decode 0x1228#16 = .unsupportedInstruction 0x1228#16 := by
  refine ⟨rfl, rfl, rfl, by decide⟩

theorem witness_StopCheckComesBeforeTheFetch :
    let s := { State.reset with stop := .pcIs 0x200#16 }
    s.status = .running ∧ s.stop.holds s = true := by refine ⟨rfl, rfl⟩

theorem witness_StoppedAndFaultedAreTerminal :
    State.reset.status = .running ∧
    (let s := { State.reset with status := .faulted (.memoryOutOfRange 4095) }
     (s.status = .stopped ∨ ∃ c, s.status = .faulted c) ∧ s.status ≠ .running ∧ Steps 0 s s) :=
  ⟨rfl, .inr ⟨_, rfl⟩, by decide, .none _⟩

theorem witness_SetRegisterLoadsTheImmediate : 0 < 16 ∧ 15 < 16 := by decide

theorem witness_AddImmediateAddsModulo256 : readReg 15 (withReg 15 0xFF#8 State.reset) = .ok 0xFF#8 := by rfl

theorem witness_SetThenAddLeavesTheSum : 0 < 16 ∧ 15 < 16 := by decide

theorem witness_RegisterIndexOutOfRangeIsFatal : 16 ≤ 16 ∧ 15 < 16 := by decide

theorem witness_ToggleTurnsOneGridPixelOver : (63 < 64 ∧ 31 < 32) ∧ (64 ≤ 64 ∨ 32 ≤ 0) ∧ (64 ≤ 0 ∨ 32 ≤ 32) := by decide

theorem witness_DrawOfNoRowsOnlyAdvances : 15 < 16 ∧ 0 < 16 := by decide

/-- A sprite at the bottom right corner, its last bit row clear outside the grid (D-e with a second row as in D-j). -/
def cornerSprite : State := drawing 0xD012 56 31 0x300 [0xFF, 0x00]

theorem cornerSprite_safe : SpriteSafe cornerSprite (56#8).toNat (31#8).toNat 2 := by
  simp only [SpriteSafe, RowReadable, RowFits]
  decide +kernel

theorem witness_DrawXorsTheSpriteOntoTheBuffer :
    readReg 0 cornerSprite = .ok 56#8 ∧ readReg 1 cornerSprite = .ok 31#8 ∧
    SpriteSafe cornerSprite (56#8).toNat (31#8).toNat 2 := ⟨rfl, rfl, cornerSprite_safe⟩

theorem witness_SpriteBitsControlTheirColumns :
    readReg 0 cornerSprite = .ok 56#8 ∧ readReg 1 cornerSprite = .ok 31#8 ∧
    SpriteSafe cornerSprite (56#8).toNat (31#8).toNat 2 ∧ (∃ t, exec (.draw 0 1 2) cornerSprite = .next t) ∧
    1 < 2 ∧ 7 < 8 := ⟨rfl, rfl, cornerSprite_safe, exec_answers_next _ _, by decide, by decide⟩

/-- The corner sprite draws and goes on. -/
theorem cornerSprite_draws : ∃ t, exec (.draw 0 1 2) cornerSprite = .next t ∧ t.status = .running := by
  obtain ⟨pb, hdone, -⟩ := drawSprite_of_safe cornerSprite_safe
  exact ⟨_, by rw [exec_draw (vx := 56#8) (vy := 31#8) rfl rfl, hdone, finish_done], rfl⟩

theorem witness_DrawingTwiceRestoresTheBuffer :
    cornerSprite.status = .running ∧ ∃ t, exec (.draw 0 1 2) cornerSprite = .next t ∧ t.status = .running :=
  ⟨rfl, cornerSprite_draws⟩

theorem witness_DrawRunsOnExactlyWhenTheSpriteIsSafe :
    cornerSprite.status = .running ∧ readReg 0 cornerSprite = .ok 56#8 ∧ readReg 1 cornerSprite = .ok 31#8 :=
  ⟨rfl, rfl, rfl⟩

/-- D-o: row 0 at 0xFFE is readable, row 1 is not. -/
theorem witness_DrawTakesTheFirstReadFault :
    let s := drawing 0xD012 0 0 0xFFE [0x01]
    readReg 0 s = .ok 0#8 ∧ readReg 1 s = .ok 0#8 ∧ 1 < 2 ∧ SpriteSafe s (0#8).toNat (0#8).toNat 1 ∧
    memRead (s.index.toNat + 1) s = .error (.memoryOutOfRange 4095) := by
  refine ⟨rfl, rfl, by decide, ?_, rfl⟩
  simp only [SpriteSafe, RowReadable, RowFits]
  decide +kernel

/-- D-q: row 0 fits, row 1's fifth column is at x = 64. -/
theorem witness_DrawTakesTheFirstToggleFault :
    let s := drawing 0xD012 60 0 0x300 [0x80, 0x1F]
    readReg 0 s = .ok 60#8 ∧ readReg 1 s = .ok 0#8 ∧ 1 < 2 ∧ 4 < 8 ∧ SpriteSafe s (60#8).toNat (0#8).toNat 1 ∧
    RowReadable s 1 ∧ (∀ c', c' < 4 → spriteBit (spriteByte s 1) c' = true → InGrid ((60#8).toNat + c') ((0#8).toNat + 1)) ∧
    spriteBit (spriteByte s 1) 4 = true ∧ ¬ InGrid ((60#8).toNat + 4) ((0#8).toNat + 1) := by
  simp only [SpriteSafe, RowReadable, RowFits]
  refine ⟨rfl, rfl, ?_⟩
  decide +kernel

theorem witness_DrawWritesNothingButPixels :
    (∃ t, exec (.draw 0 1 2) cornerSprite = .next t) ∧ ∃ t, exec (.draw 0 1 1) State.reset = .next t :=
  ⟨exec_answers_next _ _, exec_answers_next _ _⟩

/-- A step that completes an instruction. -/
theorem fetching_setRegister_steps : ∃ t, step (fetching 0x6FFF) = .next t ∧ t.status = .running ∧
    readReg 15 t ≠ readReg 15 (fetching 0x6FFF) := by
  refine ⟨_, rfl, rfl, ?_⟩
  intro h
  have : (Except.ok 0xFF#8 : Except Cause Byte) = .ok 0#8 := h
  cases this

theorem witness_NoStepChangesMemory : ∃ t, Steps 1 (fetching 0x6FFF) t := by
  obtain ⟨t, ht, -⟩ := fetching_setRegister_steps
  exact ⟨t, .one ht⟩

theorem witness_PcMovesByTwoExactlyWhenTheRunGoesOn :
    (∃ t, step (fetching 0x6FFF) = .next t) ∧ ∃ t, step (fetching 0x0000) = .next t :=
  ⟨⟨_, rfl⟩, ⟨_, rfl⟩⟩

theorem witness_ExecutionIsAStraightLine : ∃ t, Steps 1 (fetching 0x6FFF) t ∧ t.status = .running := by
  obtain ⟨t, ht, hrun, -⟩ := fetching_setRegister_steps
  exact ⟨t, .one ht, hrun⟩

theorem witness_StepStopsExactlyWhenThePredicateHolds :
    (∃ t, step { State.reset with stop := .pcIs 0x200#16 } = .next t) ∧ ∃ t, step State.reset = .next t :=
  ⟨⟨_, rfl⟩, ⟨_, rfl⟩⟩

theorem witness_OnlyANamedRegisterChanges :
    ∃ t, step (fetching 0x6FFF) = .next t ∧ readReg 15 t ≠ readReg 15 (fetching 0x6FFF) := by
  obtain ⟨t, ht, -, hne⟩ := fetching_setRegister_steps
  exact ⟨t, ht, hne⟩

theorem witness_OnlySetIndexChangesTheIndex :
    ∃ t, step (fetching 0xAFFF) = .next t ∧ t.index ≠ (fetching 0xAFFF).index := ⟨_, rfl, by decide⟩

theorem witness_OnlyDrawChangesPixels :
    ∃ t, step (drawing 0xD011 0 0 0x300 [0x80]) = .next t ∧ t.pixels ≠ (drawing 0xD011 0 0 0x300 [0x80]).pixels := by
  refine ⟨_, rfl, fun h => ?_⟩
  have := congrArg (·.pixel 0 0) h
  revert this
  decide +kernel

theorem witness_UnnamedRegistersDoNotMatter :
    15 < Config.numRegs ∧ ¬ (Instr.draw 0 1 2).names 15 ∧ ∃ t, exec (.draw 0 1 2) cornerSprite = .next t :=
  ⟨by decide, by simp [Instr.names], exec_answers_next _ _⟩

theorem witness_NoInstructionReadsThePixelBuffer : ∃ t, exec (.draw 0 1 2) cornerSprite = .next t := exec_answers_next _ _

theorem witness_PcAndStopAreNoOperands : ∃ t, exec (.draw 0 1 2) cornerSprite = .next t := exec_answers_next _ _

theorem witness_OnlyDrawReadsTheIndex :
    (∀ x y n, Instr.addImmediate 0 1#8 ≠ .draw x y n) ∧ (∃ t, exec (.addImmediate 0 1#8) State.reset = .next t) ∧
    (∀ nnn, Instr.addImmediate 0 1#8 ≠ .setIndex nnn) ∧ (∀ x y n, Instr.setIndex 1#12 ≠ .draw x y n) ∧
    ∃ nnn, Instr.setIndex 1#12 = .setIndex nnn :=
  ⟨fun _ _ _ => by simp, exec_answers_next _ _, fun _ => by simp, fun _ _ _ => by simp, _, rfl⟩

theorem witness_NoStepRaisesARegisterIndexFault : ∃ t, step (fetching 0xDFF1) = .next t := ⟨_, rfl⟩

theorem witness_OnlyDrawFaultsInItsExecuteStep :
    (Instr.draw 15 15 15).wf = true ∧ State.reset.status = .running ∧
    ∃ t, exec (.draw 15 15 15) State.reset = .next t ∧ t.status = .faulted (.fontRegionRead 0) :=
  ⟨by decide, rfl, _, rfl, rfl⟩

/-- The state at the last even address, which a run can reach. -/
theorem witness_FetchFaultsOnlyAtTheLastAddress :
    let s := { State.reset with pc := 4094#16 }
    s.Inv ∧ fetchWord s = .error (.memoryOutOfRange 4095) :=
  ⟨⟨by decide, by decide, by decide, by decide, by decide, fun _ h => by cases h⟩, rfl⟩

theorem witness_LaunchLeavesTheStatedValues :
    ([] : List Byte).length ≤ 3583 ∧ (List.replicate 3583 0x60#8).length ≤ 3583 :=
  ⟨by decide, List.length_replicate.le⟩

theorem witness_OverlongImageLaunchesNoRun : 3583 < (List.replicate 3584 0x60#8).length := by
  rw [List.length_replicate]; decide

theorem witness_InvariantHoldsAtLaunch : ∃ s, launch [0x60#8, 0x01#8] .never = some s := ⟨_, rfl⟩

/-- A running state that meets the invariant, with an instruction to run. -/
theorem fetching_inv : (fetching 0xA22A).Inv ∧ (fetching 0xA22A).status = .running :=
  ⟨⟨by decide, by decide, by decide, by decide, by decide, fun _ h => by cases h⟩, rfl⟩

theorem witness_EveryStepKeepsTheInvariant : (fetching 0xA22A).Inv ∧ ∃ t, step (fetching 0xA22A) = .next t :=
  ⟨fetching_inv.1, _, rfl⟩

theorem witness_EveryRunEndsWithin1792Steps :
    ((fetching 0xA22A).Inv ∧ (fetching 0xA22A).status = .running) ∧
    ∀ u, Reaches (fetching 0xA22A) u → u.stop.holds u = false := by
  refine ⟨fetching_inv, ?_⟩
  rintro u ⟨k, hk⟩
  have hstop : u.stop = .never :=
    hk.induct (P := fun s => s.stop = .never) (fun s t hs h => (step_frame h).2.trans hs) rfl
  rw [hstop]
  rfl

theorem witness_ARunHasAnOutputExactlyWhenItNeverFaults :
    (fetching 0xA22A).Inv ∧ (fetching 0xA22A).status = .running := fetching_inv

theorem witness_ARunHasOneEnd :
    let s := { State.reset with stop := .pcIs 0x200#16 }
    Steps 1 s (takeStop s) ∧ (takeStop s).Terminal := ⟨.one rfl, by simp [State.Terminal]⟩

theorem witness_OutputIsTheRowMajorGridOfAStoppedRun :
    ({ State.reset with status := .stopped } : State).status = .stopped ∧ State.reset.status ≠ .stopped ∧
    (0 < 64 ∧ 0 < 32) ∧ 63 < 64 ∧ 31 < 32 := by decide

end Sys2Proof.Tests
end

/-!
SUPPORT and PROOFS. The statements of the family 30_encoding.md: the decoder's dispatch, the unsupported words and the
length of an instruction (spec R63, R66, R68).
-/
namespace Sys2Proof
open Sys2Proof.Machine

/-! ### What the decoder answers for each top nibble -/

theorem decode_of_opcodeField_six {w : Word} (h : opcodeField w = 0x6#4) :
    decode w = .decoded (.setRegister (xField w) (kkField w)) := by
  simp only [decode, h]

theorem decode_of_opcodeField_seven {w : Word} (h : opcodeField w = 0x7#4) :
    decode w = .decoded (.addImmediate (xField w) (kkField w)) := by
  simp only [decode, h]

theorem decode_of_opcodeField_ten {w : Word} (h : opcodeField w = 0xA#4) :
    decode w = .decoded (.setIndex (nnnField w)) := by
  simp only [decode, h]

theorem decode_of_opcodeField_thirteen {w : Word} (h : opcodeField w = 0xD#4) :
    decode w = .decoded (.draw (xField w) (yField w) (nField w)) := by
  simp only [decode, h]

/-- The words the decoder reports are those outside the five operations' encodings. -/
theorem decode_eq_unsupported_iff (w : Word) :
    decode w = .unsupportedInstruction w ↔
      w ≠ 0x00E0#16 ∧ opcodeField w ≠ 0xA#4 ∧ opcodeField w ≠ 0x6#4 ∧ opcodeField w ≠ 0x7#4 ∧ opcodeField w ≠ 0xD#4 := by
  constructor
  · intro h
    refine ⟨?_, fun hop => ?_, fun hop => ?_, fun hop => ?_, fun hop => ?_⟩
    · rintro rfl
      exact absurd h (by decide)
    · simp [decode_of_opcodeField_ten hop] at h
    · simp [decode_of_opcodeField_six hop] at h
    · simp [decode_of_opcodeField_seven hop] at h
    · simp [decode_of_opcodeField_thirteen hop] at h
  · rintro ⟨hE0, hA, h6, h7, hD⟩
    obtain ⟨h, -⟩ | ⟨h, -⟩ | ⟨h, -⟩ | ⟨h, -⟩ | ⟨h, -⟩ | ⟨-, -, -, -, -, h⟩ := decode_cases w
    · exact absurd h hE0
    · exact absurd h h6
    · exact absurd h h7
    · exact absurd h hA
    · exact absurd h hD
    · exact h

/-- Every word is supported or reported as itself (R66). -/
theorem decode_decoded_or_unsupported (w : Word) :
    (∃ i, decode w = .decoded i) ∨ decode w = .unsupportedInstruction w := by
  cases hd : decode w with
  | decoded i => exact .inl ⟨i, rfl⟩
  | unsupportedInstruction raw => exact .inr (by rw [decode_unsupported_word hd])

/-! ### The dispatch as arithmetic on the word's number -/

theorem kkField_eq (w : Word) : kkField w = BitVec.ofNat 8 (w.toNat % 256) := by
  rw [← kkField_toNat, BitVec.ofNat_toNat, BitVec.setWidth_eq]

theorem nnnField_eq (w : Word) : nnnField w = BitVec.ofNat 12 (w.toNat % 4096) := by
  rw [← nnnField_toNat, BitVec.ofNat_toNat, BitVec.setWidth_eq]

/-- The words the decoder reports, by their number: another word than 0x00E0, and no operation's top nibble. -/
theorem decode_eq_unsupported_iff_toNat (w : Word) :
    decode w = .unsupportedInstruction w ↔
      w.toNat ≠ 0x00E0 ∧ w.toNat / 4096 ≠ 0xA ∧ w.toNat / 4096 ≠ 0x6 ∧ w.toNat / 4096 ≠ 0x7 ∧ w.toNat / 4096 ≠ 0xD := by
  simp only [decode_eq_unsupported_iff, ne_eq, ← BitVec.toNat_inj, opcodeField_toNat]
  rfl

/-- Settles O2: each top nibble fixes the decoder's branch, and each field is a quotient and remainder of the word. -/
theorem decodeDispatchesOnTheTopNibble : Obligations.DecodeDispatchesOnTheTopNibble := by
  intro w
  rw [← xField_eq, ← yField_eq, ← nField_eq, ← kkField_eq, ← nnnField_eq]
  refine ⟨fun _ hw => ?clear, fun h0 hw => ?zero, fun h => ?six, fun h => ?seven, fun h => ?ten, fun h => ?thirteen,
    fun h => ?other⟩
  case clear =>
    have : w = 0x00E0#16 := BitVec.eq_of_toNat_eq hw
    rw [this]
    rfl
  case zero => exact (decode_eq_unsupported_iff_toNat w).2 ⟨hw, by omega, by omega, by omega, by omega⟩
  case six => exact decode_of_opcodeField_six ((opcodeField_eq_iff w (by decide)).2 h)
  case seven => exact decode_of_opcodeField_seven ((opcodeField_eq_iff w (by decide)).2 h)
  case ten => exact decode_of_opcodeField_ten ((opcodeField_eq_iff w (by decide)).2 h)
  case thirteen => exact decode_of_opcodeField_thirteen ((opcodeField_eq_iff w (by decide)).2 h)
  case other =>
    simp only [List.mem_cons, List.not_mem_nil, or_false, not_or] at h
    obtain ⟨h0, h6, h7, hA, hD⟩ := h
    exact (decode_eq_unsupported_iff_toNat w).2 ⟨by omega, hA, h6, h7, hD⟩

/-! ### The words that no row of the opcode table selects -/

/-- The rows of R65 miss exactly the words that the decoder reports. -/
theorem no_row_selects_iff (w : Word) :
    (∀ r ∈ opcodeRows, r.selects w = false) ↔ decode w = .unsupportedInstruction w := by
  rw [decode_eq_unsupported_iff, forall_opcodeRows]
  simp only [← Bool.not_eq_true, selects_clear_row, selects_topNibble_row _ (show 10 < 16 by decide),
    selects_topNibble_row _ (show 6 < 16 by decide), selects_topNibble_row _ (show 7 < 16 by decide),
    selects_topNibble_row _ (show 13 < 16 by decide), ne_eq]

/-- A running core that fetches a word the decoder reports takes the fault and changes nothing else (R66, R83). -/
theorem step_of_unsupported {s : State} {w : Word} (hrun : s.status = .running) (hstop : s.stop.holds s = false)
    (hfetch : fetchWord s = .ok w) (hw : decode w = .unsupportedInstruction w) :
    step s = .next (takeFault (.unsupportedInstruction w) s) :=
  step_eq_next.2 ⟨hrun, .inr (.inr (.inl ⟨hstop, w, hfetch, hw, rfl⟩))⟩

/-- Settles O4: the rows and the decoder leave out the same words, and decoding one of these is a fault of the step. -/
theorem unmatchedWordsAreUnsupportedAndFatal : Obligations.UnmatchedWordsAreUnsupportedAndFatal := by
  refine ⟨no_row_selects_iff, decode_decoded_or_unsupported, fun s w hrun hstop hfetch hw => ?fatal, fun w hw => ?samples⟩
  case fatal => exact step_of_unsupported hrun hstop hfetch ((no_row_selects_iff w).1 hw)
  case samples =>
    have hnum : w.toNat = 0x00EE ∨ w.toNat = 0x0000 ∨ w.toNat / 4096 = 1 := by
      rcases hw with rfl | rfl | h
      · exact .inl rfl
      · exact .inr (.inl rfl)
      · exact .inr (.inr h)
    rw [no_row_selects_iff, decode_eq_unsupported_iff_toNat]
    omega

/-! ### The length of an instruction -/

/-- What a list of bytes that begins with an instruction is: that instruction's two bytes, then the rest (R68). -/
theorem decodeBytes_eq_ok {bs rest : List Byte} {i : Instr} :
    decodeBytes bs = .ok (i, rest) ↔ ∃ hi lo, bs = hi :: lo :: rest ∧ decode (wordOfBytes hi lo) = .decoded i := by
  match bs with
  | [] => simp [decodeBytes]
  | [_] => simp [decodeBytes]
  | hi :: lo :: tail =>
    rw [decodeBytes_cons_cons]
    cases hd : decode (wordOfBytes hi lo) with
    | decoded j => simp [hd, and_comm]
    | unsupportedInstruction w => simp [hd]

theorem decodeBytes_eq_truncated_iff (bs : List Byte) : decodeBytes bs = .error .truncated ↔ bs.length < 2 := by
  match bs with
  | [] => simp [decodeBytes]
  | [_] => simp [decodeBytes]
  | hi :: lo :: tail =>
    rw [decodeBytes_cons_cons]
    cases decode (wordOfBytes hi lo) <;> simp

/-- Settles O8: an instruction is read from the first two bytes alone, and only a shorter list is truncated. -/
theorem everyInstructionIsTwoBytesLong : Obligations.EveryInstructionIsTwoBytesLong := by
  refine ⟨fun bs rest i h => ?_, decodeBytes_eq_truncated_iff⟩
  obtain ⟨hi, lo, rfl, -⟩ := decodeBytes_eq_ok.1 h
  exact ⟨rfl, rfl⟩

end Sys2Proof

/-!
SUPPORT and PROOFS. The statements of the family 40_fetch_sequencer.md: the fault of an unsupported word and the terminal
statuses (spec R83, R88).
-/
namespace Sys2Proof
open Sys2Proof.Machine

/-- Settles O16: the step is fault entry and nothing more, and fault entry keeps every field but the status. -/
theorem unsupportedWordChangesOnlyTheStatus : Obligations.UnsupportedWordChangesOnlyTheStatus := by
  intro s w hrun hstop hfetch hw
  exact ⟨takeFault (.unsupportedInstruction w) s, step_of_unsupported hrun hstop hfetch hw, takeFault_status _ s,
    takeFault_v _ s, takeFault_index _ s, takeFault_pixels _ s, takeFault_pc _ s, takeFault_mem _ s, takeFault_stop _ s⟩

/-! ### Terminal statuses -/

theorem terminal_of_stopped_or_faulted {s : State} (h : s.status = .stopped ∨ ∃ c, s.status = .faulted c) :
    s.Terminal := by
  rcases h with h | ⟨c, h⟩ <;> simp [State.Terminal, h]

theorem step_ne_next_of_terminal {s : State} (hs : s.Terminal) (t : State) : step s ≠ .next t :=
  fun h => hs (running_of_step h)

/-- A run from a terminal state has no steps, so it ends where it began. -/
theorem steps_of_terminal {k : Nat} {s t : State} (h : Steps k s t) (hs : s.Terminal) : k = 0 ∧ t = s := by
  cases h with
  | none => exact ⟨rfl, rfl⟩
  | more first _ => exact absurd first (step_ne_next_of_terminal hs _)

/-- Settles O18: a step is taken exactly from Running, so a run from a terminal state stays there. -/
theorem stoppedAndFaultedAreTerminal : Obligations.StoppedAndFaultedAreTerminal := by
  refine ⟨fun s hs => step_of_running_answers_next hs,
    fun s t hs => step_ne_next_of_terminal (terminal_of_stopped_or_faulted hs) t, fun k s t hs h => ?neverRunning⟩
  case neverRunning =>
    obtain ⟨-, rfl⟩ := steps_of_terminal h hs
    exact hs

end Sys2Proof

/-!
SUPPORT and PROOFS. The statements of the family 41_register_ops.md: SET-INDEX, SET-REGISTER and ADD-IMMEDIATE, each from
its word to its whole frame (spec R100, R101, R102).
-/
namespace Sys2Proof
open Sys2Proof.Machine

/-! ### The words of the register operations, by their operands -/

/-- The fields of a word put together from a top nibble, a register index and an immediate (R60). -/
theorem fields_of_word_xkk {op x : Nat} (hop : op < 16) (hx : x < 16) (kk : Byte) :
    opcodeField (BitVec.ofNat 16 (4096 * op + 256 * x + kk.toNat)) = BitVec.ofNat 4 op ∧
    xField (BitVec.ofNat 16 (4096 * op + 256 * x + kk.toNat)) = x ∧
    kkField (BitVec.ofNat 16 (4096 * op + 256 * x + kk.toNat)) = kk := by
  have hkk := kk.isLt
  have hw : (BitVec.ofNat 16 (4096 * op + 256 * x + kk.toNat)).toNat = 4096 * op + 256 * x + kk.toNat := by
    rw [BitVec.toNat_ofNat]
    omega
  refine ⟨(opcodeField_eq_iff _ hop).2 ?_, ?_, BitVec.eq_of_toNat_eq ?_⟩
  · omega
  · rw [xField_eq]
    omega
  · rw [kkField_toNat]
    omega

theorem decode_setRegister_word {x : Nat} (hx : x < 16) (kk : Byte) :
    decode (BitVec.ofNat 16 (0x6000 + 256 * x + kk.toNat)) = .decoded (.setRegister x kk) := by
  obtain ⟨hop, hxf, hkf⟩ := fields_of_word_xkk (op := 6) (by decide) hx kk
  exact (decode_of_opcodeField_six hop).trans (by rw [hxf, hkf])

theorem decode_addImmediate_word {x : Nat} (hx : x < 16) (kk : Byte) :
    decode (BitVec.ofNat 16 (0x7000 + 256 * x + kk.toNat)) = .decoded (.addImmediate x kk) := by
  obtain ⟨hop, hxf, hkf⟩ := fields_of_word_xkk (op := 7) (by decide) hx kk
  exact (decode_of_opcodeField_seven hop).trans (by rw [hxf, hkf])

theorem decode_setIndex_word (nnn : Address12) :
    decode (BitVec.ofNat 16 (0xA000 + nnn.toNat)) = .decoded (.setIndex nnn) := by
  have hnnn := nnn.isLt
  have hw : (BitVec.ofNat 16 (0xA000 + nnn.toNat)).toNat = 0xA000 + nnn.toNat := by
    rw [BitVec.toNat_ofNat]
    omega
  have hop : opcodeField (BitVec.ofNat 16 (0xA000 + nnn.toNat)) = 0xA#4 :=
    (opcodeField_eq_iff _ (by decide)).2 (by omega)
  have hnf : nnnField (BitVec.ofNat 16 (0xA000 + nnn.toNat)) = nnn := by
    apply BitVec.eq_of_toNat_eq
    rw [nnnField_toNat]
    omega
  rw [decode_of_opcodeField_ten hop, hnf]

/-! ### An execute step that ends in a register write -/

/-- An execute step that ends in a write of register `x` goes on: a read of `x` returns the byte, a read of any other
index returns what it did, and the advance is all that changes besides. -/
theorem finish_writeReg {x : Nat} (hx : x < Config.numRegs) (b : Byte) (s : State) :
    ∃ t, finish (writeReg x b s) = .next t ∧ readReg x t = .ok b ∧ (∀ j, j ≠ x → readReg j t = readReg j s) ∧
      t.pc = s.pc + 2#16 ∧ t.index = s.index ∧ t.pixels = s.pixels ∧ t.status = s.status ∧ t.stop = s.stop ∧
      ∀ a, t.mem.read a = s.mem.read a := by
  have hread (j : Nat) :
      readReg j (advance { s with v := s.v.set x b }) = if j = x then .ok b else readReg j s :=
    (readReg_congr (advance_v _) j).trans (readReg_set hx b s j)
  refine ⟨advance { s with v := s.v.set x b }, ?_, ?_, fun j hj => ?_, rfl, rfl, rfl, rfl, rfl, fun _ => rfl⟩
  · rw [writeReg_of_lt hx, finish_done]
  · rw [hread, if_pos rfl]
  · rw [hread, if_neg hj]

/-! ### The statements -/

/-- Settles O21: the register that can be read is one that can be written, and the byte written is the sum. -/
theorem addImmediateAddsModulo256 : Obligations.AddImmediateAddsModulo256 := by
  intro x kk old s hold
  obtain ⟨hx, -⟩ := readReg_eq_ok.1 hold
  obtain ⟨t, hfinish, hnew, hframe⟩ := finish_writeReg hx (old + kk) s
  refine ⟨decode_addImmediate_word hx kk, t, old + kk, ?_, hnew, BitVec.toNat_add old kk, hframe⟩
  rw [exec_addImmediate, hold, need_ok, hfinish]

/-- Settles O19: the zero-extended address has the address's number, and the step writes the index register alone. -/
theorem setIndexLoadsTheAddress : Obligations.SetIndexLoadsTheAddress := by
  intro nnn s
  exact ⟨decode_setIndex_word nnn, _, exec_setIndex nnn s, addressOperand_toNat nnn, rfl, rfl, rfl, rfl, rfl, fun _ => rfl⟩

/-- Settles O20: the step is the register write of the immediate. -/
theorem setRegisterLoadsTheImmediate : Obligations.SetRegisterLoadsTheImmediate := by
  intro x kk s hx
  rw [exec_setRegister]
  exact ⟨decode_setRegister_word hx kk, finish_writeReg hx kk s⟩

end Sys2Proof

/-!
SUPPORT and PROOFS. Decoder and encoder: each undoes the other, the rows of the opcode table, and the count of supported
words (spec R61, R64, R65).
-/
namespace Sys2Proof
open Sys2Proof.Machine

/-! ### Decoding an encoding -/

theorem encode_setIndex_eq_word (nnn : Address12) :
    encode (.setIndex nnn) = BitVec.ofNat 16 (0xA000 + nnn.toNat) := by
  rw [← encode_setIndex_toNat, BitVec.ofNat_toNat, BitVec.setWidth_eq]

theorem encode_setRegister_eq_word {x : Nat} (hx : x < 16) (kk : Byte) :
    encode (.setRegister x kk) = BitVec.ofNat 16 (0x6000 + 256 * x + kk.toNat) := by
  have hnum := encode_setRegister_toNat x kk
  rw [Nat.mod_eq_of_lt hx, Nat.mul_comm] at hnum
  rw [← hnum, BitVec.ofNat_toNat, BitVec.setWidth_eq]

theorem encode_addImmediate_eq_word {x : Nat} (hx : x < 16) (kk : Byte) :
    encode (.addImmediate x kk) = BitVec.ofNat 16 (0x7000 + 256 * x + kk.toNat) := by
  have hnum := encode_addImmediate_toNat x kk
  rw [Nat.mod_eq_of_lt hx, Nat.mul_comm] at hnum
  rw [← hnum, BitVec.ofNat_toNat, BitVec.setWidth_eq]

theorem decode_encode_draw {x y n : Nat} (hx : x < 16) (hy : y < 16) (hn : n < 16) :
    decode (encode (.draw x y n)) = .decoded (.draw x y n) := by
  have hnum := encode_draw_toNat x y n
  have hop : opcodeField (encode (.draw x y n)) = 0xD#4 := (opcodeField_eq_iff _ (by decide)).2 (by omega)
  have hxf : xField (encode (.draw x y n)) = x := by rw [xField_eq]; omega
  have hyf : yField (encode (.draw x y n)) = y := by rw [yField_eq]; omega
  have hnf : nField (encode (.draw x y n)) = n := by rw [nField_eq]; omega
  rw [decode_of_opcodeField_thirteen hop, hxf, hyf, hnf]

/-- No bit of a well-formed instruction is dropped by its word. -/
theorem decode_encode {i : Instr} (h : i.wf = true) : decode (encode i) = .decoded i := by
  cases i with
  | clear => rfl
  | setIndex nnn => rw [encode_setIndex_eq_word, decode_setIndex_word]
  | setRegister x kk =>
    have hx := (wf_setRegister x kk).1 h
    rw [encode_setRegister_eq_word hx, decode_setRegister_word hx]
  | addImmediate x kk =>
    have hx := (wf_addImmediate x kk).1 h
    rw [encode_addImmediate_eq_word hx, decode_addImmediate_word hx]
  | draw x y n =>
    obtain ⟨hx, hy, hn⟩ := (wf_draw x y n).1 h
    exact decode_encode_draw hx hy hn

/-- Settles O5: the two bytes of an encoding make the word again, and the word decodes to its instruction. -/
theorem decodingInvertsEncoding : Obligations.DecodingInvertsEncoding := by
  intro i hi
  refine ⟨decode_encode hi, fun rest => decodeBytes_eq_ok.2 ⟨_, _, rfl, ?_⟩⟩
  rw [wordOfBytes_highByte_lowByte, decode_encode hi]

/-! ### Encoding what was decoded -/

theorem xField_lt (w : Word) : xField w < 16 := by
  rw [xField_eq]; omega

theorem yField_lt (w : Word) : yField w < 16 := by
  rw [yField_eq]; omega

theorem nField_lt (w : Word) : nField w < 16 := by
  rw [nField_eq]; omega

/-- Settles O6: each branch of the decoder takes its operands from fields, which are in range, and fields and top nibble
make up the word's number. -/
theorem encodingInvertsDecoding : Obligations.EncodingInvertsDecoding := by
  intro w i hi
  have hw := w.isLt
  obtain ⟨h, hd⟩ | ⟨h, hd⟩ | ⟨h, hd⟩ | ⟨h, hd⟩ | ⟨h, hd⟩ | ⟨-, -, -, -, -, hd⟩ := decode_cases w <;>
    rw [hd] at hi <;> cases hi
  case inl => exact ⟨wf_clear, h.symm⟩
  case inr.inl =>
    have hop := (opcodeField_eq_iff w (n := 6) (by decide)).1 h
    refine ⟨(wf_setRegister _ _).2 (xField_lt w), BitVec.eq_of_toNat_eq ?_⟩
    rw [encode_setRegister_toNat, xField_eq, kkField_toNat]
    omega
  case inr.inr.inl =>
    have hop := (opcodeField_eq_iff w (n := 7) (by decide)).1 h
    refine ⟨(wf_addImmediate _ _).2 (xField_lt w), BitVec.eq_of_toNat_eq ?_⟩
    rw [encode_addImmediate_toNat, xField_eq, kkField_toNat]
    omega
  case inr.inr.inr.inl =>
    have hop := (opcodeField_eq_iff w (n := 10) (by decide)).1 h
    refine ⟨wf_setIndex _, BitVec.eq_of_toNat_eq ?_⟩
    rw [encode_setIndex_toNat, nnnField_toNat]
    omega
  case inr.inr.inr.inr.inl =>
    have hop := (opcodeField_eq_iff w (n := 13) (by decide)).1 h
    refine ⟨(wf_draw _ _ _).2 ⟨xField_lt w, yField_lt w, nField_lt w⟩, BitVec.eq_of_toNat_eq ?_⟩
    rw [encode_draw_toNat, xField_eq, yField_eq, nField_eq]
    omega

theorem wf_of_decode {w : Word} {i : Instr} (h : decode w = .decoded i) : i.wf = true :=
  (encodingInvertsDecoding w i h).1

/-! ### The rows of the opcode table and the decoder -/

theorem encode_selected_by_own_row (i : Instr) :
    ∃ r ∈ opcodeRows, r.mnemonic = i.mnemonic ∧ r.selects (encode i) = true := by
  cases i with
  | clear => exact Laws.OwnRow.clear
  | setIndex nnn => exact Laws.OwnRow.setIndex nnn
  | setRegister x kk => exact Laws.OwnRow.setRegister x kk
  | addImmediate x kk => exact Laws.OwnRow.addImmediate x kk
  | draw x y n => exact Laws.OwnRow.draw x y n

/-- Two rows that select one word agree on the bits both of them look at. -/
theorem bits_agree_of_selects {r r' : OpcodeRow} {w : Word} (h : r.selects w = true) (h' : r'.selects w = true) :
    r.bits &&& r'.mask = r'.bits &&& r.mask := by
  simp only [OpcodeRow.selects, decide_eq_true_eq] at h h'
  rw [← h, ← h', BitVec.and_assoc, BitVec.and_assoc, BitVec.and_comm r.mask]

/-- Only one row can select a word. -/
theorem row_eq_of_selects {r r' : OpcodeRow} (hr : r ∈ opcodeRows) (hr' : r' ∈ opcodeRows) {w : Word}
    (h : r.selects w = true) (h' : r'.selects w = true) : r = r' := by
  have hall : ∀ r ∈ opcodeRows, ∀ r' ∈ opcodeRows, r.bits &&& r'.mask = r'.bits &&& r.mask → r = r' := by decide
  exact hall r hr r' hr' (bits_agree_of_selects h h')

theorem opcodeRows_disjoint :
    opcodeRows.Pairwise fun r r' => ∀ w : Word, ¬ (r.selects w = true ∧ r'.selects w = true) := by
  have hnodup : opcodeRows.Pairwise (· ≠ ·) := by decide
  exact hnodup.imp_of_mem fun hr hr' hne w ⟨h, h'⟩ => hne (row_eq_of_selects hr hr' h h')

theorem row_eq_of_mnemonic {r r' : OpcodeRow} (hr : r ∈ opcodeRows) (hr' : r' ∈ opcodeRows)
    (h : r.mnemonic = r'.mnemonic) : r = r' := by
  have hall : ∀ r ∈ opcodeRows, ∀ r' ∈ opcodeRows, r.mnemonic = r'.mnemonic → r = r' := by decide
  exact hall r hr r' hr' h

/-- Settles O3: a supported word is an encoding, which its operation's own row selects; rows are told apart by their
mnemonics, and by the words they select. -/
theorem decodeAgreesWithTheMatchMaskTable : Obligations.DecodeAgreesWithTheMatchMaskTable := by
  refine ⟨fun w r hr => ⟨fun hsel => ?decoded, ?selected⟩, opcodeRows_disjoint⟩
  case decoded =>
    rcases decode_decoded_or_unsupported w with ⟨i, hi⟩ | hun
    · obtain ⟨-, rfl⟩ := encodingInvertsDecoding w i hi
      obtain ⟨r', hr', hm, hsel'⟩ := encode_selected_by_own_row i
      exact ⟨i, hi, by rw [row_eq_of_selects hr hr' hsel hsel', hm]⟩
    · exact absurd hsel (by rw [(no_row_selects_iff w).2 hun r hr]; decide)
  case selected =>
    rintro ⟨i, hi, hm⟩
    obtain ⟨-, rfl⟩ := encodingInvertsDecoding w i hi
    obtain ⟨r', hr', hm', hsel'⟩ := encode_selected_by_own_row i
    rwa [row_eq_of_mnemonic hr hr' (hm.symm.trans hm'.symm)]

/-! ### The count of supported words -/

/-- The numbers of the supported words: 0x00E0, and the top nibbles 6 and 7, 0xA, 0xD. -/
theorem filter_supported_eq :
    ((Finset.range 65536).filter fun k =>
      decode (BitVec.ofNat 16 k) ≠ .unsupportedInstruction (BitVec.ofNat 16 k)) =
    insert 0x00E0 (Finset.Ico 0x6000 0x8000 ∪ (Finset.Ico 0xA000 0xB000 ∪ Finset.Ico 0xD000 0xE000)) := by
  ext k
  simp only [Finset.mem_filter, Finset.mem_range, Finset.mem_insert, Finset.mem_union, Finset.mem_Ico, ne_eq,
    decode_eq_unsupported_iff_toNat, BitVec.toNat_ofNat]
  omega

/-- Settles O7: one word, and four top nibbles of 4096 words each. -/
theorem supportedWordsNumber16385 : Obligations.SupportedWordsNumber16385 := by
  unfold Obligations.SupportedWordsNumber16385
  rw [filter_supported_eq, Finset.card_insert_of_notMem (by simp), Finset.card_union_of_disjoint,
    Finset.card_union_of_disjoint, Nat.card_Ico, Nat.card_Ico, Nat.card_Ico]
  · exact Finset.Ico_disjoint_Ico_consecutive 0xA000 0xB000 0xE000 |>.mono_right
      (Finset.Ico_subset_Ico (by decide) le_rfl)
  · rw [Finset.disjoint_left]
    simp only [Finset.mem_union, Finset.mem_Ico]
    omega

/-- Settles O1: the decoder computes on each of the seven words. -/
theorem sampleWordsDecodeAsTheSpecSays : Obligations.SampleWordsDecodeAsTheSpecSays := by
  unfold Obligations.SampleWordsDecodeAsTheSpecSays
  decide

end Sys2Proof

/-!
SUPPORT and PROOFS. The memory with its two ports (spec R40 to R43), the fetch, and how a step begins: stop check, fetch,
decode (spec R80 to R84), with a word placed for the fetch (log 3).
-/
namespace Sys2Proof
open Sys2Proof.Machine

/-! ### Memory and its ports -/

/-- Settles O9: the read port's cases, each in its own range of addresses. -/
theorem readPortAppliesTheAccessPolicy : Obligations.ReadPortAppliesTheAccessPolicy := by
  intro s a
  refine ⟨fun h => ?font, fun hge hlt => ?interpreter, fun hge hlt => ?program, fun h => ?beyond⟩
  case font => exact memRead_eq_error.2 (.inl ⟨h, rfl⟩)
  case interpreter => exact memRead_eq_error.2 (.inr (.inl ⟨hge, hlt, rfl⟩))
  case program => exact memRead_eq_ok.2 ⟨⟨hge, hlt⟩, rfl⟩
  case beyond => exact memRead_eq_error.2 (.inr (.inr ⟨h, rfl⟩))

/-- Settles O10: below 4095 the port is one write of the memory list, which keeps the canonical form. -/
theorem writePortStoresExactlyOneByte : Obligations.WritePortStoresExactlyOneByte := by
  intro s a v hwf
  refine ⟨fun ha => ?store, fun ha => if_neg (Nat.not_lt.2 ha)⟩
  case store =>
    refine ⟨{ s with mem := s.mem.write a v }, memWrite_eq_some.2 ⟨ha, rfl⟩, ?_, fun b hb => ?_,
      Memory.write_wf hwf ha v, rfl, rfl, rfl, rfl, rfl, rfl⟩
    · exact (Memory.read_write hwf.1 a v a).trans (if_pos rfl)
    · exact (Memory.read_write hwf.1 a v b).trans (if_neg hb)

/-- What a canonical memory lists is what it reads as, wherever that is not what an unlisted address reads as. -/
theorem Machine.Memory.mem_iff_read {m : Memory} (h : m.wf) (c : Host.Cell) :
    c ∈ m ↔ m.read c.1 = c.2 ∧ c.2 ≠ Memory.unlistedByte := by
  induction m with
  | nil => exact iff_of_false List.not_mem_nil fun ⟨hread, hne⟩ => hne hread.symm
  | cons d m ih =>
    obtain ⟨hrising, hcells⟩ := h
    obtain ⟨hbelow, htail⟩ := List.pairwise_cons.1 hrising
    have ih := ih ⟨htail, fun e he => hcells e (List.mem_cons_of_mem _ he)⟩
    rw [Memory.read_cons d.1 d.2, List.mem_cons]
    split
    · next heq =>
      have hnot : c ∉ m := fun hc => absurd (hbelow c hc) (by omega)
      have hd : d.2 ≠ Memory.unlistedByte := (hcells d (by simp)).2
      constructor
      · rintro (rfl | hc)
        · exact ⟨rfl, hd⟩
        · exact absurd hc hnot
      · rintro ⟨hv, -⟩
        exact .inl (Prod.ext heq hv.symm)
    · next hne => rw [← ih, or_iff_right fun h => hne (by rw [h])]

/-- Settles O11: two canonical memories that read alike list the same cells, in the one rising order. -/
theorem canonicalMemoriesThatReadAlikeAreEqual : Obligations.CanonicalMemoriesThatReadAlikeAreEqual := by
  intro m m' hm hm' hread
  have hcells : ∀ c, c ∈ m ↔ c ∈ m' := fun c => by
    rw [Memory.mem_iff_read hm, Memory.mem_iff_read hm', hread]
  have hnodup {m : Memory} (h : m.wf) : m.Nodup := h.1.imp fun hlt heq => absurd hlt (by rw [heq]; exact lt_irrefl _)
  have hperm : m.Perm m' := (List.perm_ext_iff_of_nodup (hnodup hm) (hnodup hm')).2 hcells
  exact hperm.eq_of_pairwise (fun _ _ _ _ hlt hgt => absurd hlt (Nat.lt_asymm hgt)) hm.1 hm'.1

/-! ### Fetch and decode -/

/-- Settles O12: both reads answer the stored bytes, and the first is the high half of the word. -/
theorem fetchIsBigEndian : Obligations.FetchIsBigEndian := by
  intro s hge hlt
  have hhi := memRead_eq_ok (s := s).2 ⟨⟨hge, Nat.lt_of_succ_lt hlt⟩, rfl⟩
  have hlo := memRead_eq_ok (s := s).2 ⟨⟨Nat.le_succ_of_le hge, hlt⟩, rfl⟩
  exact ⟨_, fetchWord_eq_ok.2 ⟨_, _, hhi, hlo, rfl⟩, wordOfBytes_toNat _ _⟩

theorem step_of_fetch_fault {s : State} {c : Cause} (hrun : s.status = .running) (hstop : s.stop.holds s = false)
    (hfetch : fetchWord s = .error c) : step s = .next (takeFault c s) :=
  step_eq_next.2 ⟨hrun, .inr (.inl ⟨hstop, c, hfetch, rfl⟩)⟩

/-- Settles O13: either read's fault is the fetch's, and fault entry changes the status alone. -/
theorem fetchFaultChangesOnlyTheStatus : Obligations.FetchFaultChangesOnlyTheStatus := by
  intro s c hrun hstop
  refine ⟨fun h => ?first, fun hi hhi h => ?second⟩
  case first => exact step_of_fetch_fault hrun hstop (fetchWord_eq_error.2 (.inl h))
  case second => exact step_of_fetch_fault hrun hstop (fetchWord_eq_error.2 (.inr ⟨⟨hi, hhi⟩, h⟩))

theorem step_of_fetches {s : State} {i : Instr} (hrun : s.status = .running) (hstop : s.stop.holds s = false)
    (hfetches : s.Fetches i) : step s = exec i s := by
  obtain ⟨t, ht⟩ := exec_answers_next i s
  rw [ht]
  exact step_eq_next.2 ⟨hrun, .inr (.inr (.inr ⟨hstop, i, hfetches, ht⟩))⟩

/-- Settles O14: the two bytes read make the word that the step decodes. -/
theorem stepRunsTheDecodedInstruction : Obligations.StepRunsTheDecodedInstruction := by
  intro s hi lo i hrun hstop hhi hlo hd
  exact step_of_fetches hrun hstop ⟨_, fetchWord_eq_ok.2 ⟨hi, lo, hhi, hlo, rfl⟩, hd⟩

/-- Settles O17: the stop is the first case of a step, and changes the status alone. -/
theorem stopCheckComesBeforeTheFetch : Obligations.StopCheckComesBeforeTheFetch :=
  fun _ hrun hstop => step_eq_next.2 ⟨hrun, .inl ⟨hstop, rfl⟩⟩

/-! ### A word placed for the fetch -/

theorem tableWord_toNat (w : Word) : tableWord 16 w.toNat = w := by
  rw [tableWord, Nat.mod_eq_of_lt w.isLt, BitVec.ofNat_toNat, BitVec.setWidth_eq]

/-- A placed word's bytes stand at `pc` and `pc + 1`, the high one first; every other byte is as before. -/
theorem read_placed_word {m : Memory} (hm : m.wf) (p : Nat) (w : Word) (a : Nat) :
    ((m.write p (highByte w)).write (p + 1) (lowByte w)).read a =
      if a = p + 1 then lowByte w else if a = p then highByte w else m.read a := by
  rw [Memory.read_write (Memory.write_rising hm.1 _ _), Memory.read_write hm.1]

/-- A state with a word's two bytes at `pc`, in the program region, fetches that word. -/
theorem fetchWord_of_bytes {s : State} {w : Word} (hge : 0x200 ≤ s.pc.toNat) (hlt : s.pc.toNat + 1 < 4095)
    (hhi : s.mem.read s.pc.toNat = highByte w) (hlo : s.mem.read (s.pc.toNat + 1) = lowByte w) :
    fetchWord s = .ok w :=
  fetchWord_eq_ok.2 ⟨highByte w, lowByte w, memRead_eq_ok.2 ⟨⟨hge, Nat.lt_of_succ_lt hlt⟩, hhi.symm⟩,
    memRead_eq_ok.2 ⟨⟨Nat.le_succ_of_le hge, hlt⟩, hlo.symm⟩, (wordOfBytes_highByte_lowByte w).symm⟩

/-- Settles O15: the placed bytes are fetched as the word, which decodes to its instruction, and no stop predicate holds
before it. -/
theorem aPlacedWordIsTheNextInstruction : Obligations.APlacedWordIsTheNextInstruction := by
  intro s i hi hwf hge hlt p
  have hplaced : p = placeWord (encode i) s := by rw [← tableWord_toNat (encode i)]; rfl
  obtain ⟨stop, hp, hkeep, hnever, hholds⟩ := placeWord_eq hlt (encode i)
  rw [← hplaced] at hp hkeep hnever hholds
  have hread := read_placed_word hwf s.pc.toNat (encode i)
  have hhi := (hread s.pc.toNat).trans ((if_neg (by omega)).trans (if_pos rfl))
  have hlo := (hread (s.pc.toNat + 1)).trans (if_pos rfl)
  have hfetch : fetchWord p = .ok (encode i) := by
    rw [hp]
    exact fetchWord_of_bytes hge hlt hhi hlo
  have hstop : p.stop = stop := by rw [hp]
  have hrun : p.status = .running := by rw [hp]
  refine ⟨hfetch, step_of_fetches hrun hholds ⟨_, hfetch, decode_encode hi⟩, by rw [hp], by rw [hp], by rw [hp],
    by rw [hp], hrun, fun h => hstop.trans (hkeep h), fun h => hstop.trans (hnever h), fun a ha ha' => ?otherBytes⟩
  case otherBytes =>
    rw [hp, hread, if_neg ha', if_neg ha]

end Sys2Proof

/-!
SUPPORT and PROOFS. The register file's contract and the pixel operations: two writes of one register, an index out of
range, CLEAR, a toggle, and DRAW with and without a fault (spec R24, R103, R120 to R127).
-/
namespace Sys2Proof
open Sys2Proof.Machine

/-! ### Registers -/

/-- Settles O22: each of the two steps ends in a write of the register, and the second reads what the first wrote. -/
theorem setThenAddLeavesTheSum : Obligations.SetThenAddLeavesTheSum := by
  intro x a b s hx
  obtain ⟨t, hset, hreadt, hkeept, hpct, -⟩ := finish_writeReg hx a s
  obtain ⟨u, hadd, hreadu, hkeepu, hpcu, -⟩ := finish_writeReg hx (a + b) t
  refine ⟨t, u, hset, ?add, ?sum, fun j hj => (hkeepu j hj).trans (hkeept j hj), ?pc⟩
  case add => rw [exec_addImmediate, hreadt, need_ok, hadd]
  case sum =>
    rw [hreadu, ← BitVec.toNat_add, BitVec.ofNat_toNat, BitVec.setWidth_eq]
  case pc =>
    rw [hpcu, hpct, BitVec.add_assoc]
    rfl

theorem exec_draw_of_regX_fault {x : Nat} {s : State} {c : Cause} (hx : readReg x s = .error c) (y n : Nat) :
    exec (.draw x y n) s = .next (takeFault c s) := by
  rcases exec_draw_cases x y n s with ⟨vx, _, hvx, -⟩ | ⟨c', hc | ⟨⟨vx, hvx⟩, -⟩, hd⟩
  · exact absurd (hx.symm.trans hvx) nofun
  · cases hx.symm.trans hc
    exact hd
  · exact absurd (hx.symm.trans hvx) nofun

theorem exec_draw_of_regY_fault {x y : Nat} {s : State} {vx : Byte} {c : Cause} (hx : readReg x s = .ok vx)
    (hy : readReg y s = .error c) (n : Nat) : exec (.draw x y n) s = .next (takeFault c s) := by
  rcases exec_draw_cases x y n s with ⟨_, vy, -, hvy, -⟩ | ⟨c', hc | ⟨-, hc⟩, hd⟩
  · exact absurd (hy.symm.trans hvy) nofun
  · exact absurd (hx.symm.trans hc) nofun
  · cases hy.symm.trans hc
    exact hd

/-- Settles O23: the register file refuses the index, in the write, in the read before it, and in either read of DRAW. -/
theorem registerIndexOutOfRangeIsFatal : Obligations.RegisterIndexOutOfRangeIsFatal := by
  intro x kk s hx
  refine ⟨?setRegister, ?addImmediate, fun y n => ?drawX, fun z n hz => ?drawY⟩
  case setRegister =>
    rw [exec_setRegister, writeReg_of_ge hx]
    rfl
  case addImmediate =>
    rw [exec_addImmediate, readReg_of_ge hx]
    rfl
  case drawX => exact exec_draw_of_regX_fault (readReg_of_ge hx s) y n
  case drawY => exact exec_draw_of_regY_fault (readReg_of_lt hz s) (readReg_of_ge hx s) n

/-! ### CLEAR and the write controller -/

/-- Settles O24: the word is read off the encoding, and the step is the advance alone. -/
theorem clearIsANoOp : Obligations.ClearIsANoOp := by
  refine ⟨fun w => ⟨fun hd => (encodingInvertsDecoding w _ hd).2.symm, ?word⟩, fun s =>
    ⟨_, exec_clear s, rfl, rfl, rfl, rfl, rfl, rfl, fun _ => rfl⟩⟩
  case word =>
    rintro rfl
    rfl

/-- Settles O25: inside the grid the buffer is the old one with the pixel turned over; outside it the check fails. -/
theorem toggleTurnsOneGridPixelOver : Obligations.ToggleTurnsOneGridPixelOver := by
  intro x y s
  refine ⟨fun hx hy => ?inside, fun hout => toggle_of_not_inGrid (by rw [inGrid_iff]; omega) s⟩
  case inside =>
    refine ⟨_, toggle_of_inGrid ⟨hx, hy⟩ s, ?turned, fun x' y' hne => ?others, rfl, rfl, rfl, rfl, rfl, rfl⟩
    case turned =>
      rw [PixelBuffer.pixel_turnOver]
      simp
    case others =>
      have hother : ¬ (x' = x ∧ y' = y) := by simpa using hne
      rw [PixelBuffer.pixel_turnOver]
      simp [hother]

/-! ### DRAW -/

/-- Settles O26: no row is drawn, so nothing is left but the advance. -/
theorem drawOfNoRowsOnlyAdvances : Obligations.DrawOfNoRowsOnlyAdvances :=
  fun _ _ s hx hy => exec_draw (readReg_of_lt hx s) (readReg_of_lt hy s) 0

/-- DRAW of a safe sprite goes on, and only the pixels it covers are turned over (R126). -/
theorem exec_draw_of_safe {x y n : Nat} {vx vy : Byte} {s : State} (hx : readReg x s = .ok vx)
    (hy : readReg y s = .ok vy) (h : SpriteSafe s vx.toNat vy.toNat n) :
    ∃ pb : PixelBuffer, exec (.draw x y n) s = .next (advance { s with pixels := pb }) ∧
      ∀ X Y, pb.pixel X Y = (s.pixels.pixel X Y).map (xor · (spriteCovers s vx.toNat vy.toNat n X Y)) := by
  obtain ⟨pb, hdone, hpix⟩ := drawSprite_of_safe h
  exact ⟨pb, by rw [exec_draw hx hy, hdone, finish_done], hpix⟩

/-- Settles O27: the safe sprite's step, field by field. -/
theorem drawXorsTheSpriteOntoTheBuffer : Obligations.DrawXorsTheSpriteOntoTheBuffer := by
  intro x y n vx vy s hx hy hsafe
  obtain ⟨pb, hexec, hpix⟩ := exec_draw_of_safe hx hy hsafe
  exact ⟨_, hexec, hpix, rfl, rfl, rfl, rfl, rfl, fun _ => rfl⟩

/-- The pixel at an offset in the sprite's rows and columns is covered exactly where the sprite's bit there is set. -/
theorem spriteCovers_at_offset (s : State) (x0 y0 : Nat) {n r c : Nat} (hr : r < n) (hc : c < 8) :
    spriteCovers s x0 y0 n (x0 + c) (y0 + r) = spriteBit (spriteByte s r) c := by
  rw [Bool.eq_iff_iff, spriteCovers, List.any_eq_true]
  constructor
  · rintro ⟨r', -, h⟩
    obtain ⟨c', -, h⟩ := List.any_eq_true.1 h
    obtain ⟨hat, hbit⟩ := Bool.and_eq_true_iff.1 h
    obtain ⟨hX, hY⟩ := of_decide_eq_true hat
    rwa [show r = r' by omega, show c = c' by omega]
  · intro hbit
    refine ⟨r, List.mem_range.2 hr, List.any_eq_true.2 ⟨c, List.mem_range.2 hc, ?_⟩⟩
    simp [hbit]

/-- Settles O28: among the covered pixels, the one at an offset is covered by the bit at that offset alone. -/
theorem spriteBitsControlTheirColumns : Obligations.SpriteBitsControlTheirColumns := by
  intro x y n r c vx vy s t hx hy hsafe ht hr hc
  obtain ⟨pb, hexec, hpix⟩ := exec_draw_of_safe hx hy hsafe
  cases hexec.symm.trans ht
  rw [advance_pixels, hpix, spriteCovers_at_offset s _ _ hr hc]
  rfl

/-- DRAW whose sprite raises a fault takes it and leaves all but the pixels as they were. -/
theorem exec_draw_of_raised {x y n : Nat} {vx vy : Byte} {s u : State} {c : Cause} (hx : readReg x s = .ok vx)
    (hy : readReg y s = .ok vy) (h : drawSprite vx.toNat vy.toNat n s = .raised c u) :
    exec (.draw x y n) s = .next (takeFault c u) := by
  rw [exec_draw hx hy, h, finish_raised]

/-- Settles O31: rows before the first unreadable one are safe, so its read fault is the sprite's. -/
theorem drawTakesTheFirstReadFault : Obligations.DrawTakesTheFirstReadFault := by
  intro x y n r vx vy s c hx hy hr hsafe hread
  obtain ⟨pb, hraised⟩ := drawSprite_of_read_fault hr hsafe hread
  exact ⟨_, exec_draw_of_raised hx hy hraised, rfl, rfl, rfl, rfl, rfl, rfl⟩

/-- Settles O32: rows and columns before the first set bit outside the grid are safe, so its toggle fault is the
sprite's. -/
theorem drawTakesTheFirstToggleFault : Obligations.DrawTakesTheFirstToggleFault := by
  intro x y n r c vx vy s hx hy hr hc hsafe hread hbefore hbit hout
  obtain ⟨pb, hraised⟩ := drawSprite_of_toggle_fault hr hsafe hread hc hbefore hbit hout
  exact ⟨_, exec_draw_of_raised hx hy hraised, rfl, rfl, rfl, rfl, rfl, rfl⟩

/-- The causes that drawing `n` rows at an origin can raise: the read fault of a row, or the toggle of one of its columns
outside the grid (R122, R124). -/
def SpriteCause (s : State) (x0 y0 n : Nat) (c : Cause) : Prop :=
  (∃ r, r < n ∧ memRead (spriteAddress s r) s = .error c) ∨
  (∃ r k, r < n ∧ k < Config.spriteWidth ∧ ¬ InGrid (x0 + k) (y0 + r) ∧ c = .outOfBoundsDraw (x0 + k) (y0 + r))

/-- A sprite is safe, or raises one of its causes. -/
theorem drawSprite_outcome (x0 y0 n : Nat) (s : State) :
    SpriteSafe s x0 y0 n ∨
    (∃ c u, SpriteCause s x0 y0 n c ∧ drawSprite x0 y0 n s = .raised c u) := by
  rcases drawSprite_cases x0 y0 n s with hsafe | ⟨r, c, hr, hsafe, hc⟩ | ⟨r, k, hr, hk, hsafe, hread, hbefore, hbit, hout⟩
  · exact .inl hsafe
  · obtain ⟨pb, hraised⟩ := drawSprite_of_read_fault hr hsafe hc
    exact .inr ⟨c, _, .inl ⟨r, hr, hc⟩, hraised⟩
  · obtain ⟨pb, hraised⟩ := drawSprite_of_toggle_fault hr hsafe hread hk hbefore hbit hout
    exact .inr ⟨_, _, .inr ⟨r, k, hr, hk, hout, rfl⟩, hraised⟩

/-- Everything DRAW can come to once both origins are read: it goes on and the sprite was safe, or it takes one of the
sprite's faults. -/
theorem exec_draw_outcome {x y n : Nat} {vx vy : Byte} {s t : State} (hx : readReg x s = .ok vx)
    (hy : readReg y s = .ok vy) (h : exec (.draw x y n) s = .next t) :
    (SpriteSafe s vx.toNat vy.toNat n ∧ t.status = s.status) ∨
    (∃ c, SpriteCause s vx.toNat vy.toNat n c ∧ t.status = .faulted c) := by
  rcases drawSprite_outcome vx.toNat vy.toNat n s with hsafe | ⟨c, u, hc, hraised⟩
  · obtain ⟨pb, hexec, -⟩ := exec_draw_of_safe hx hy hsafe
    cases hexec.symm.trans h
    exact .inl ⟨hsafe, rfl⟩
  · cases (exec_draw_of_raised hx hy hraised).symm.trans h
    exact .inr ⟨c, hc, rfl⟩

/-- A DRAW that stays Running read both origins and drew a safe sprite. -/
theorem spriteSafe_of_draw_running {x y n : Nat} {s t : State} (h : exec (.draw x y n) s = .next t)
    (ht : t.status = .running) :
    ∃ vx vy, readReg x s = .ok vx ∧ readReg y s = .ok vy ∧ SpriteSafe s vx.toNat vy.toNat n := by
  rcases exec_draw_cases x y n s with ⟨vx, vy, hx, hy, -⟩ | ⟨c, -, hd⟩
  · rcases exec_draw_outcome hx hy h with ⟨hsafe, -⟩ | ⟨c, -, hfault⟩
    · exact ⟨vx, vy, hx, hy, hsafe⟩
    · exact absurd (ht.symm.trans hfault) nofun
  · cases hd.symm.trans h
    exact absurd ht nofun

/-- Settles O30: a sprite is safe exactly where it is drawn without a fault, and DRAW then keeps the status. -/
theorem drawRunsOnExactlyWhenTheSpriteIsSafe : Obligations.DrawRunsOnExactlyWhenTheSpriteIsSafe := by
  intro x y n vx vy s hrun hx hy
  constructor
  · rintro ⟨t, ht, hstatus⟩
    rcases exec_draw_outcome hx hy ht with ⟨hsafe, -⟩ | ⟨c, -, hfault⟩
    · exact hsafe
    · exact absurd (hstatus.symm.trans hfault) nofun
  · intro hsafe
    obtain ⟨pb, hexec, -⟩ := exec_draw_of_safe hx hy hsafe
    exact ⟨_, hexec, hrun⟩

/-- Turning the same pixels over twice turns none over. -/
theorem map_xor_map_xor (p : Option Bool) (b : Bool) : (p.map (xor · b)).map (xor · b) = p := by
  cases p <;> simp

/-- Settles O29: the first DRAW leaves registers, index and memory alone, so the second draws the same safe sprite, and
each pixel is xored twice with one bit. -/
theorem drawingTwiceRestoresTheBuffer : Obligations.DrawingTwiceRestoresTheBuffer := by
  intro x y n s t hrun ht htrun
  obtain ⟨vx, vy, hx, hy, hsafe⟩ := spriteSafe_of_draw_running ht htrun
  obtain ⟨pb, hexec, hpix⟩ := exec_draw_of_safe hx hy hsafe
  cases hexec.symm.trans ht
  obtain ⟨pb', hexec', hpix'⟩ :=
    exec_draw_of_safe (s := advance { s with pixels := pb }) hx hy hsafe
  have hrestored : pb' = s.pixels := PixelBuffer.eq_of_pixel fun X Y => by
    rw [hpix', advance_pixels, hpix]
    exact map_xor_map_xor _ _
  refine ⟨_, hexec', hrun, hrestored, rfl, rfl, ?pc, rfl⟩
  case pc =>
    rw [advance_pc, advance_pc, BitVec.add_assoc]
    rfl

/-- Settles O33: DRAW gives the old state with some pixels, advanced or faulted. -/
theorem drawWritesNothingButPixels : Obligations.DrawWritesNothingButPixels := by
  intro x y n s t ht
  obtain ⟨pb, rfl | ⟨c, rfl⟩⟩ := exec_draw_pixelsAside ht
  · exact ⟨rfl, rfl, rfl, fun _ => rfl, .inl ⟨rfl, rfl⟩⟩
  · exact ⟨rfl, rfl, rfl, fun _ => rfl, .inr ⟨⟨c, rfl⟩, rfl⟩⟩

end Sys2Proof

/-!
SUPPORT and PROOFS. What every step keeps, when it stops, which instruction changes which piece of state, and which piece
has no influence on an instruction (spec R22, R23, R25, R26, R30, R51, R81, R85, R86, R92).
-/
namespace Sys2Proof
open Sys2Proof.Machine

/-! ### Every step -/

/-- Settles O34: a step that keeps memory and stop predicate, repeated. -/
theorem noStepChangesMemory : Obligations.NoStepChangesMemory := by
  intro k s t hsteps
  refine hsteps.induct (P := fun t => t.mem = s.mem ∧ t.stop = s.stop) (fun t u ht hstep => ?_) ⟨rfl, rfl⟩
  exact ⟨(step_frame hstep).1.trans ht.1, (step_frame hstep).2.trans ht.2⟩

/-- What a step does to the state's own pieces: it runs a fetched instruction, or it ends the run and changes the status
alone. -/
theorem step_runs_or_ends {s t : State} (h : step s = .next t) :
    (∃ i, s.Fetches i ∧ exec i s = .next t) ∨
    (t.status ≠ .running ∧ t.v = s.v ∧ t.index = s.index ∧ t.pixels = s.pixels ∧ t.pc = s.pc) := by
  obtain ⟨-, ⟨-, rfl⟩ | ⟨-, c, -, rfl⟩ | ⟨-, w, -, -, rfl⟩ | ⟨-, i, hi, hexec⟩⟩ := step_eq_next.1 h
  · exact .inr ⟨nofun, rfl, rfl, rfl, rfl⟩
  · exact .inr ⟨nofun, rfl, rfl, rfl, rfl⟩
  · exact .inr ⟨nofun, rfl, rfl, rfl, rfl⟩
  · exact .inl ⟨i, hi, hexec⟩

/-- Settles O35: an instruction advances or faults, and every other step ends the run where it is. -/
theorem pcMovesByTwoExactlyWhenTheRunGoesOn : Obligations.PcMovesByTwoExactlyWhenTheRunGoesOn := by
  intro s t h
  have hrun := running_of_step h
  rcases step_runs_or_ends h with ⟨i, -, hexec⟩ | ⟨hend, -, -, -, hpc⟩
  · obtain ⟨-, -, ⟨hstatus, hpc⟩ | ⟨⟨c, hfault⟩, hpc⟩⟩ := exec_frame hexec
    · exact .inl ⟨hstatus.trans hrun, hpc⟩
    · exact .inr ⟨by rw [hfault]; exact nofun, hpc⟩
  · exact .inr ⟨hend, hpc⟩

theorem pc_of_step_running {s t : State} (h : step s = .next t) (ht : t.status = .running) : t.pc = s.pc + 2#16 := by
  rcases pcMovesByTwoExactlyWhenTheRunGoesOn s t h with ⟨-, hpc⟩ | ⟨hend, -⟩
  · exact hpc
  · exact absurd ht hend

/-- A run that is still Running was Running before. -/
theorem running_of_steps {k : Nat} {s t : State} (h : Steps k s t) (ht : t.status = .running) : s.status = .running := by
  by_contra hs
  obtain ⟨-, rfl⟩ := steps_of_terminal h hs
  exact hs ht

theorem pc_of_steps_running {k : Nat} {s t : State} (h : Steps k s t) (ht : t.status = .running) :
    t.pc = s.pc + BitVec.ofNat 16 (2 * k) := by
  induction h with
  | none s => exact (BitVec.add_zero s.pc).symm
  | @more k s u t first later ih =>
    rw [ih ht, pc_of_step_running first (running_of_steps later ht), BitVec.add_assoc, ← BitVec.ofNat_add]
    congr 2
    omega

/-- Settles O36: every step on the way stayed Running, so each one advanced. -/
theorem executionIsAStraightLine : Obligations.ExecutionIsAStraightLine :=
  fun k s t h ht => ⟨pc_of_steps_running h ht, (noStepChangesMemory k s t h).1⟩

/-- Settles O37: of the cases of a step only the stop check's sets Stopped; an instruction keeps Running or faults. -/
theorem stepStopsExactlyWhenThePredicateHolds : Obligations.StepStopsExactlyWhenThePredicateHolds := by
  intro s t h
  obtain ⟨hrun, ⟨hstop, rfl⟩ | ⟨hstop, c, -, rfl⟩ | ⟨hstop, w, -, -, rfl⟩ | ⟨hstop, i, -, hexec⟩⟩ := step_eq_next.1 h
  · exact ⟨hrun, iff_of_true rfl hstop⟩
  · exact ⟨hrun, iff_of_false nofun (by simp [hstop])⟩
  · exact ⟨hrun, iff_of_false nofun (by simp [hstop])⟩
  · have hne : t.status ≠ .stopped := by
      obtain ⟨-, -, ⟨hstatus, -⟩ | ⟨⟨c, hfault⟩, -⟩⟩ := exec_frame hexec
      · rw [hstatus, hrun]
        exact nofun
      · rw [hfault]
        exact nofun
    exact ⟨hrun, iff_of_false hne (by simp [hstop])⟩

/-! ### Which instruction changes which piece of state -/

theorem eq_of_readReg_set_ne {x : Nat} (hx : x < Config.numRegs) {b : Byte} {s t : State} (ht : t.v = s.v.set x b)
    {j : Nat} (h : readReg j t ≠ readReg j s) : j = x := by
  by_contra hne
  refine h ((readReg_congr (s := { s with v := s.v.set x b }) ht j).trans ?_)
  rw [readReg_set hx, if_neg hne]

theorem exec_changes_register {i : Instr} {s t : State} {j : Nat} (h : exec i s = .next t)
    (hne : readReg j t ≠ readReg j s) : ∃ kk, i = .setRegister j kk ∨ i = .addImmediate j kk := by
  cases i with
  | clear =>
    cases h
    exact absurd (readReg_congr (advance_v s) j) hne
  | setIndex nnn =>
    cases h
    exact absurd (readReg_congr (s := s) rfl j) hne
  | setRegister x kk =>
    rcases exec_setRegister_cases x kk s with ⟨hx, hd⟩ | ⟨-, hd⟩ <;> cases hd.symm.trans h
    · exact ⟨kk, .inl (by rw [eq_of_readReg_set_ne hx rfl hne])⟩
    · exact absurd (readReg_congr (takeFault_v _ s) j) hne
  | addImmediate x kk =>
    rcases exec_addImmediate_cases x kk s with ⟨hx, hd⟩ | ⟨-, hd⟩ <;> cases hd.symm.trans h
    · exact ⟨kk, .inr (by rw [eq_of_readReg_set_ne hx rfl hne])⟩
    · exact absurd (readReg_congr (takeFault_v _ s) j) hne
  | draw x y n =>
    obtain ⟨pb, rfl | ⟨c, rfl⟩⟩ := exec_draw_pixelsAside h <;> exact absurd (readReg_congr (s := s) rfl j) hne

/-- Of the instructions only SET-INDEX writes the index register, and only DRAW a pixel. -/
theorem exec_index_pixels_frame {i : Instr} {s t : State} (h : exec i s = .next t) :
    (t.index = s.index ∨ ∃ nnn, i = .setIndex nnn) ∧ (t.pixels = s.pixels ∨ ∃ x y n, i = .draw x y n) := by
  cases i with
  | clear =>
    cases h
    exact ⟨.inl rfl, .inl rfl⟩
  | setIndex nnn =>
    cases h
    exact ⟨.inr ⟨nnn, rfl⟩, .inl rfl⟩
  | setRegister x kk =>
    rcases exec_setRegister_cases x kk s with ⟨_, hd⟩ | ⟨_, hd⟩ <;> cases hd.symm.trans h <;>
      exact ⟨.inl rfl, .inl rfl⟩
  | addImmediate x kk =>
    rcases exec_addImmediate_cases x kk s with ⟨_, hd⟩ | ⟨_, hd⟩ <;> cases hd.symm.trans h <;>
      exact ⟨.inl rfl, .inl rfl⟩
  | draw x y n =>
    obtain ⟨pb, rfl | ⟨c, rfl⟩⟩ := exec_draw_pixelsAside h <;> exact ⟨.inl rfl, .inr ⟨x, y, n, rfl⟩⟩

/-- Settles O38: a step that changes a register runs an instruction, and that instruction names it as destination. -/
theorem onlyANamedRegisterChanges : Obligations.OnlyANamedRegisterChanges := by
  intro s t j h hne
  rcases step_runs_or_ends h with ⟨i, hi, hexec⟩ | ⟨-, hv, -⟩
  · obtain ⟨kk, rfl | rfl⟩ := exec_changes_register hexec hne
    · exact ⟨kk, .inl hi⟩
    · exact ⟨kk, .inr hi⟩
  · exact absurd (readReg_congr hv j) hne

/-- Settles O39: a step that changes the index register runs an instruction, which is SET-INDEX. -/
theorem onlySetIndexChangesTheIndex : Obligations.OnlySetIndexChangesTheIndex := by
  intro s t h hne
  rcases step_runs_or_ends h with ⟨i, hi, hexec⟩ | ⟨-, -, hindex, -⟩
  · obtain ⟨nnn, rfl⟩ := (exec_index_pixels_frame hexec).1.resolve_left hne
    exact ⟨nnn, hi⟩
  · exact absurd hindex hne

/-- Settles O40: a step that changes a pixel runs an instruction, which is DRAW. -/
theorem onlyDrawChangesPixels : Obligations.OnlyDrawChangesPixels := by
  intro s t h hne
  rcases step_runs_or_ends h with ⟨i, hi, hexec⟩ | ⟨-, -, -, hpixels, -⟩
  · obtain ⟨x, y, n, rfl⟩ := (exec_index_pixels_frame hexec).2.resolve_left hne
    exact ⟨x, y, n, hi⟩
  · exact absurd hpixels hne

/-! ### What has no influence on an instruction

One relation between two states for each piece of state that is changed; an instruction that reads and writes alike in
related states keeps the relation (`exec_rel`), and each non-interference statement is one such relation. -/

/-- An instruction reads and writes alike in two states that `R` relates: in the registers it names, in the index register
if it is SET-INDEX, in sprites if it is DRAW, and at the end of its execute step. -/
structure RunsAlike (i : Instr) (R : State → State → Prop) : Prop where
  advance : ∀ a b, R a b → R (advance a) (advance b)
  fault : ∀ c a b, R a b → R (takeFault c a) (takeFault c b)
  read : ∀ {j a b}, i.names j → R a b → readReg j b = readReg j a
  write : ∀ {j a b} (hj : j < Config.numRegs) (v : Byte), i.names j → R a b →
    R { a with v := a.v.set j v } { b with v := b.v.set j v }
  index : ∀ {nnn a b}, i = .setIndex nnn → R a b →
    R (writeIndex (addressOperand nnn) a) (writeIndex (addressOperand nnn) b)
  draw : ∀ {x y n}, i = .draw x y n → DrawsAlike R

theorem writeReg_rel {i : Instr} {R : State → State → Prop} (hR : RunsAlike i R) {x : Nat} (hx : i.names x) (v : Byte)
    {s s' : State} (hs : R s s') : EffectRel R (writeReg x v s) (writeReg x v s') := by
  by_cases h : x < Config.numRegs
  · rw [writeReg_of_lt h, writeReg_of_lt h]
    exact .done (hR.write h v hx hs)
  · rw [writeReg_of_ge (Nat.le_of_not_lt h), writeReg_of_ge (Nat.le_of_not_lt h)]
    exact .raised _ hs

/-- An instruction that runs alike in related states answers related states. -/
theorem exec_rel {i : Instr} {R : State → State → Prop} (hR : RunsAlike i R) {s s' t : State} (hs : R s s')
    (h : exec i s = .next t) : ∃ u, exec i s' = .next u ∧ R t u := by
  cases i with
  | clear =>
    cases h
    exact ⟨_, exec_clear s', hR.advance _ _ hs⟩
  | setIndex nnn =>
    cases h
    exact ⟨_, exec_setIndex nnn s', hR.advance _ _ (hR.index rfl hs)⟩
  | setRegister x kk => exact finish_rel (writeReg_rel hR rfl kk hs) hR.advance hR.fault h
  | addImmediate x kk =>
    rw [exec_addImmediate] at h ⊢
    rw [hR.read rfl hs]
    cases hx : readReg x s with
    | error c =>
      rw [hx] at h
      exact finish_rel (.raised c hs) hR.advance hR.fault h
    | ok old =>
      rw [hx] at h
      exact finish_rel (writeReg_rel hR rfl (old + kk) hs) hR.advance hR.fault h
  | draw x y n =>
    exact exec_draw_rel (hR.draw rfl) hR.advance hR.fault hs (hR.read (.inl rfl) hs) (hR.read (.inr rfl) hs) h

/-- The state with register `k` set to `b`. -/
def withRegister (k : Nat) (hk : k < Config.numRegs) (b : Byte) (s : State) : State := { s with v := s.v.set k b }

theorem runsAlike_withRegister {i : Instr} {k : Nat} (hk : k < Config.numRegs) (b : Byte) (hi : ¬ i.names k) :
    RunsAlike i fun s t => t = withRegister k hk b s where
  advance := by
    rintro s t rfl
    rfl
  fault := by
    rintro c s t rfl
    rfl
  read := by
    rintro j s t hj rfl
    rw [withRegister, readReg_set hk, if_neg]
    rintro rfl
    exact hi hj
  write := by
    rintro j s t hj v hnames rfl
    have hne : k ≠ j := by
      rintro rfl
      exact hi hnames
    rw [withRegister, withRegister, Vector.set_comm _ _ hne]
  index := by
    rintro nnn s t - rfl
    rfl
  draw := fun _ => drawsAlike_of_update (withRegister k hk b) (fun _ => rfl) (fun _ => rfl) (fun _ => rfl) fun _ _ => rfl

/-- Settles O41: the relation that sets the unnamed register. -/
theorem unnamedRegistersDoNotMatter : Obligations.UnnamedRegistersDoNotMatter := by
  intro i s t k hk b hi h
  obtain ⟨u, hu, rfl⟩ := exec_rel (runsAlike_withRegister hk b hi) rfl h
  exact hu

theorem drawsAlike_pixelsAside : DrawsAlike PixelsAside where
  index := by
    rintro s t ⟨pb, rfl⟩
    rfl
  mem := by
    rintro s t ⟨pb, rfl⟩
    rfl
  toggle := by
    rintro s t x y ⟨pb, rfl⟩
    by_cases h : InGrid x y
    · rw [toggle_of_inGrid h, toggle_of_inGrid h]
      exact .done ⟨_, rfl⟩
    · rw [toggle_of_not_inGrid h, toggle_of_not_inGrid h]
      exact .raised _ ⟨pb, rfl⟩

theorem runsAlike_pixelsAside (i : Instr) : RunsAlike i PixelsAside where
  advance := by
    rintro s t ⟨pb, rfl⟩
    exact ⟨pb, rfl⟩
  fault := by
    rintro c s t ⟨pb, rfl⟩
    exact ⟨pb, rfl⟩
  read := by
    rintro j s t - ⟨pb, rfl⟩
    rfl
  write := by
    rintro j s t hj v - ⟨pb, rfl⟩
    exact ⟨pb, rfl⟩
  index := by
    rintro nnn s t - ⟨pb, rfl⟩
    exact ⟨pb, rfl⟩
  draw := fun _ => drawsAlike_pixelsAside

/-- Settles O42: the relation of two states that differ in their pixels alone. -/
theorem noInstructionReadsThePixelBuffer : Obligations.NoInstructionReadsThePixelBuffer := by
  intro i s t pb h
  obtain ⟨u, hu, pb', rfl⟩ := exec_rel (runsAlike_pixelsAside i) (s' := { s with pixels := pb }) ⟨pb, rfl⟩ h
  exact ⟨_, hu, rfl, rfl, rfl, rfl, rfl, rfl⟩

/-- The state with `pc` moved on by `d` and the stop predicate `c`. -/
def withPcAndStop (d : Word) (c : StopCondition) (s : State) : State := { s with pc := s.pc + d, stop := c }

theorem runsAlike_withPcAndStop (i : Instr) (d : Word) (c : StopCondition) :
    RunsAlike i fun s t => t = withPcAndStop d c s where
  advance := by
    rintro s t rfl
    exact State.eq_of_fields rfl rfl (add_right_comm s.pc d 2#16) rfl rfl rfl rfl
  fault := by
    rintro f s t rfl
    rfl
  read := by
    rintro j s t - rfl
    rfl
  write := by
    rintro j s t hj v - rfl
    rfl
  index := by
    rintro nnn s t - rfl
    rfl
  draw := fun _ => drawsAlike_of_update (withPcAndStop d c) (fun _ => rfl) (fun _ => rfl) (fun _ => rfl) fun _ _ => rfl

/-- Settles O43: the relation that moves `pc` by a fixed distance and replaces the stop predicate. -/
theorem pcAndStopAreNoOperands : Obligations.PcAndStopAreNoOperands := by
  intro i s t p c h
  have hs : { s with pc := p, stop := c } = withPcAndStop (p - s.pc) c s :=
    State.eq_of_fields rfl rfl (add_sub_cancel s.pc p).symm rfl rfl rfl rfl
  obtain ⟨u, hu, rfl⟩ := exec_rel (runsAlike_withPcAndStop i (p - s.pc) c) hs h
  refine ⟨_, hu, rfl, rfl, rfl, rfl, rfl, ?distance⟩
  case distance =>
    show t.pc + (p - s.pc) - p = t.pc - s.pc
    bv_omega

theorem runsAlike_writeIndex {i : Instr} (a : Word) (hindex : ∀ nnn, i ≠ .setIndex nnn)
    (hdraw : ∀ x y n, i ≠ .draw x y n) : RunsAlike i fun s t => t = writeIndex a s where
  advance := by
    rintro s t rfl
    rfl
  fault := by
    rintro c s t rfl
    rfl
  read := by
    rintro j s t - rfl
    rfl
  write := by
    rintro j s t hj v - rfl
    rfl
  index := fun h => absurd h (hindex _)
  draw := fun h => absurd h (hdraw _ _ _)

/-- Settles O44: SET-INDEX overwrites what was changed; every other instruction but DRAW keeps the relation that sets the
index register. -/
theorem onlyDrawReadsTheIndex : Obligations.OnlyDrawReadsTheIndex := by
  intro i s t a hdraw h
  by_cases hset : ∃ nnn, i = .setIndex nnn
  · obtain ⟨nnn, rfl⟩ := hset
    cases h
    exact ⟨_, exec_setIndex nnn _, rfl, rfl, rfl, rfl, rfl, rfl, fun _ => rfl, fun hne => absurd rfl (hne nnn)⟩
  · have hindex : ∀ nnn, i ≠ .setIndex nnn := fun nnn hi => hset ⟨nnn, hi⟩
    obtain ⟨u, hu, rfl⟩ := exec_rel (runsAlike_writeIndex a hindex hdraw) (s' := { s with index := a }) rfl h
    exact ⟨_, hu, rfl, rfl, rfl, rfl, rfl, rfl, fun hi => absurd hi hset, fun _ => rfl⟩

end Sys2Proof

/-!
SUPPORT and PROOFS. The faults a step can raise, and the invariant that every step keeps (spec R24, R25, R27, R90, R91,
R140 to R143).
-/
namespace Sys2Proof
open Sys2Proof.Machine

/-! ### Fault kinds -/

/-- Settles O45: the code is read off each kind. -/
theorem faultKindsHaveTheirCodes : Obligations.FaultKindsHaveTheirCodes :=
  fun _ _ _ => ⟨rfl, rfl, rfl, rfl, rfl, rfl⟩

/-! ### Where a fault comes from -/

/-- With its registers in range, only DRAW faults in its execute step, and then with a cause of its sprite. -/
theorem exec_faulted_of_wf {i : Instr} {s t : State} {c : Cause} (hwf : i.wf = true) (hrun : s.status = .running)
    (h : exec i s = .next t) (hc : t.status = .faulted c) :
    ∃ x y n, ∃ vx vy : Byte, i = .draw x y n ∧ SpriteCause s vx.toNat vy.toNat n c := by
  have hgoesOn (hstatus : t.status = s.status) : False := by
    rw [hstatus, hrun] at hc
    exact nomatch hc
  cases i with
  | clear =>
    cases h
    exact (hgoesOn rfl).elim
  | setIndex nnn =>
    cases h
    exact (hgoesOn rfl).elim
  | setRegister x kk =>
    have hx := (wf_setRegister x kk).1 hwf
    rw [exec_setRegister, writeReg_of_lt hx] at h
    cases h
    exact (hgoesOn rfl).elim
  | addImmediate x kk =>
    have hx := (wf_addImmediate x kk).1 hwf
    rw [exec_addImmediate, readReg_of_lt hx, need_ok, writeReg_of_lt hx] at h
    cases h
    exact (hgoesOn rfl).elim
  | draw x y n =>
    obtain ⟨hx, hy, -⟩ := (wf_draw x y n).1 hwf
    rcases exec_draw_outcome (readReg_of_lt hx s) (readReg_of_lt hy s) h with ⟨-, hstatus⟩ | ⟨c', hcause, hc'⟩
    · exact (hgoesOn hstatus).elim
    · cases hc.symm.trans hc'
      exact ⟨x, y, n, _, _, rfl, hcause⟩

/-- Settles O47: the sprite's causes are a row's read fault and a toggle outside the grid. -/
theorem onlyDrawFaultsInItsExecuteStep : Obligations.OnlyDrawFaultsInItsExecuteStep := by
  intro i s t c hwf hrun h hc
  obtain ⟨x, y, n, vx, vy, hi, hread | ⟨r, k, -, -, hout, rfl⟩⟩ := exec_faulted_of_wf hwf hrun h hc
  · exact ⟨x, y, n, hi, .inl hread⟩
  · exact ⟨x, y, n, hi, .inr ⟨_, _, hout, rfl⟩⟩

/-- Every fault a step takes: the fetch's, an unsupported word's, or one of a sprite of at most 15 rows. -/
theorem step_faulted {s t : State} {c : Cause} (h : step s = .next t) (hc : t.status = .faulted c) :
    fetchWord s = .error c ∨
    (∃ w, decode w = .unsupportedInstruction w ∧ c = .unsupportedInstruction w) ∨
    (∃ n, ∃ vx vy : Byte, n < 16 ∧ SpriteCause s vx.toNat vy.toNat n c) := by
  obtain ⟨hrun, ⟨-, rfl⟩ | ⟨-, c', hfetch, rfl⟩ | ⟨-, w, -, hw, rfl⟩ | ⟨-, i, ⟨w, -, hd⟩, hexec⟩⟩ := step_eq_next.1 h
  · exact nomatch hc
  · cases hc
    exact .inl hfetch
  · cases hc
    exact .inr (.inl ⟨w, hw, rfl⟩)
  · have hwf := wf_of_decode hd
    obtain ⟨x, y, n, vx, vy, rfl, hcause⟩ := exec_faulted_of_wf hwf hrun hexec hc
    obtain ⟨-, -, hn⟩ := (wf_draw x y n).1 hwf
    exact .inr (.inr ⟨n, vx, vy, hn, hcause⟩)

theorem memRead_ne_registerIndex (a j : Nat) (s : State) : memRead a s ≠ .error (.registerIndexOutOfRange j) := by
  intro h
  obtain ⟨-, hc⟩ | ⟨-, -, hc⟩ | ⟨-, hc⟩ := memRead_eq_error.1 h <;> exact nomatch hc

/-- Settles O46: neither port raises that kind, and decoded operands are in range. -/
theorem noStepRaisesARegisterIndexFault : Obligations.NoStepRaisesARegisterIndexFault := by
  intro s t j h hc
  rcases step_faulted h hc with hfetch | ⟨w, -, hw⟩ | ⟨n, vx, vy, -, ⟨r, -, hread⟩ | ⟨r, k, -, -, -, hout⟩⟩
  · rcases fetchWord_eq_error.1 hfetch with hread | ⟨-, hread⟩ <;> exact memRead_ne_registerIndex _ j s hread
  · exact nomatch hw
  · exact memRead_ne_registerIndex _ j s hread
  · exact nomatch hout

/-- Settles O48: `pc` is in the program region, so only the second read can fault, and only at 4095. -/
theorem fetchFaultsOnlyAtTheLastAddress : Obligations.FetchFaultsOnlyAtTheLastAddress := by
  intro s c hinv hfetch
  have hge : 0x200 ≤ s.pc.toNat := hinv.pc_ge
  have hlt : s.pc.toNat < 4095 := hinv.pc_lt
  rcases fetchWord_eq_error.1 hfetch with hread | ⟨-, hread⟩
  · rw [memRead_eq_ok.2 ⟨⟨hge, hlt⟩, rfl⟩] at hread
    exact nomatch hread
  · obtain ⟨hfont, -⟩ | ⟨-, hres, -⟩ | ⟨hend, hc⟩ := memRead_eq_error.1 hread
    · simp only [Config.fontLimit] at hfont
      omega
    · simp only [Config.programOrigin] at hres
      omega
    · have hpc : s.pc.toNat = 4094 := by
        simp only [Config.memSize] at hend
        omega
      exact ⟨hpc, by rw [hc, hpc]⟩

/-! ### The invariant -/

theorem possible_of_memRead {a : Nat} {s : State} {c : Cause} (h : memRead a s = .error c) (ha : a ≤ 0x100D) :
    c.Possible := by
  obtain ⟨hfont, rfl⟩ | ⟨hge, hlt, rfl⟩ | ⟨hend, rfl⟩ := memRead_eq_error.1 h
  · exact hfont
  · exact ⟨hge, hlt⟩
  · exact ⟨hend, ha⟩

/-- A sprite of at most 15 rows at a 12-bit address and byte origins: its last row is at 0x100D at most, its last pixel at
column 262 and row 269. -/
theorem possible_of_spriteCause {s : State} {vx vy : Byte} {n : Nat} {c : Cause} (hindex : s.index.toNat ≤ 0x0FFF)
    (hn : n < 16) (h : SpriteCause s vx.toNat vy.toNat n c) : c.Possible := by
  have hvx := vx.isLt
  have hvy := vy.isLt
  obtain ⟨r, hr, hread⟩ | ⟨r, k, hr, hk, hout, rfl⟩ := h
  · exact possible_of_memRead hread (by rw [spriteAddress]; omega)
  · simp only [Config.spriteWidth] at hk
    exact ⟨hout, by omega, by omega⟩

theorem possible_of_step {s t : State} {c : Cause} (hinv : s.Inv) (h : step s = .next t) (hc : t.status = .faulted c) :
    c.Possible := by
  rcases step_faulted h hc with hfetch | ⟨w, hw, rfl⟩ | ⟨n, vx, vy, hn, hcause⟩
  · obtain ⟨-, rfl⟩ := fetchFaultsOnlyAtTheLastAddress s c hinv hfetch
    exact ⟨le_rfl, by decide⟩
  · exact hw
  · exact possible_of_spriteCause hinv.index_le hn hcause

theorem index_le_of_step {s t : State} (hindex : s.index.toNat ≤ 0x0FFF) (h : step s = .next t) :
    t.index.toNat ≤ 0x0FFF := by
  by_cases hne : t.index = s.index
  · rwa [hne]
  · rcases step_runs_or_ends h with ⟨i, -, hexec⟩ | ⟨-, -, heq, -⟩
    · obtain ⟨nnn, rfl⟩ := (exec_index_pixels_frame hexec).1.resolve_left hne
      cases hexec
      have := nnn.isLt
      rw [advance_index, writeIndex_index, addressOperand_toNat]
      omega
    · exact absurd heq hne

/-- A word that was fetched ends below 4095. -/
theorem pc_lt_of_fetches {s : State} {i : Instr} (h : s.Fetches i) : s.pc.toNat + 1 < 4095 := by
  obtain ⟨w, hw, -⟩ := h
  obtain ⟨hi, lo, -, hlo, -⟩ := fetchWord_eq_ok.1 hw
  exact (memRead_eq_ok.1 hlo).1.2

/-- A step keeps `pc`, or moves it 2 on from a word that was fetched: no wrap. -/
theorem pc_toNat_of_step {s t : State} (h : step s = .next t) :
    t.pc = s.pc ∨ (t.pc.toNat = s.pc.toNat + 2 ∧ s.pc.toNat + 1 < 4095) := by
  rcases step_runs_or_ends h with ⟨i, hi, hexec⟩ | ⟨-, -, -, -, hpc⟩
  · have hlt := pc_lt_of_fetches hi
    obtain ⟨-, -, ⟨-, hpc⟩ | ⟨-, hpc⟩⟩ := exec_frame hexec
    · refine .inr ⟨?_, hlt⟩
      rw [hpc, BitVec.toNat_add, BitVec.toNat_ofNat]
      omega
    · exact .inl hpc
  · exact .inl hpc

/-- Settles O53: memory is kept, `pc` moves only from an even address below 4093, SET-INDEX zero-extends, and each way to
fault records a possible cause. -/
theorem everyStepKeepsTheInvariant : Obligations.EveryStepKeepsTheInvariant := by
  intro s t hinv h
  have heven := hinv.pc_even
  have hge : 0x200 ≤ s.pc.toNat := hinv.pc_ge
  have hpc : t.pc.toNat % 2 = 0 ∧ 0x200 ≤ t.pc.toNat ∧ t.pc.toNat < 4095 := by
    rcases pc_toNat_of_step h with hpc | ⟨hpc, hlt⟩
    · rw [hpc]
      exact ⟨heven, hge, hinv.pc_lt⟩
    · omega
  obtain ⟨hpceven, hpcge, hpclt⟩ := hpc
  exact {
    mem_wf := by
      rw [(step_frame h).1]
      exact hinv.mem_wf
    pc_even := hpceven
    pc_ge := hpcge
    pc_lt := hpclt
    index_le := index_le_of_step hinv.index_le h
    fault_possible := fun c hc => possible_of_step hinv h hc }

end Sys2Proof

/-!
SUPPORT and PROOFS. Reset and launch, and the end of a run: that it comes, that there is one, and its output (spec R32,
R56, R88, R90, R93, R94, R160, R168).
-/
namespace Sys2Proof
open Sys2Proof.Machine

/-! ### Reset and launch -/

theorem reset_readReg {j : Nat} (hj : j < 16) : readReg j State.reset = .ok 0#8 := by
  rw [readReg_of_lt hj]
  exact congrArg Except.ok (Vector.getElem_replicate hj)

theorem reset_pixel {x y : Nat} (hx : x < 64) (hy : y < 32) : State.reset.pixels.pixel x y = some false := by
  rw [PixelBuffer.pixel_of_inGrid _ ⟨hx, hy⟩]
  simp [State.reset]

/-- Settles O49: a launch gives the state after reset with the image's memory and the stop predicate. -/
theorem launchLeavesTheStatedValues : Obligations.LaunchLeavesTheStatedValues := by
  intro image stop hlen
  obtain ⟨m, hlaunch, -, hread⟩ := launch_eq_some stop hlen
  refine ⟨_, hlaunch, fun j hj => reset_readReg hj, rfl, rfl, fun x y hx hy => reset_pixel hx hy, rfl, rfl, hlen,
    fun k hk => ?image, fun a ha => ?zero⟩
  case image =>
    refine (hread _).trans ?_
    rw [dif_pos ⟨Nat.le_add_right _ _, Nat.add_lt_add_left hk _⟩]
    simp only [Nat.add_sub_cancel_left]
  case zero =>
    exact (hread a).trans (dif_neg (by omega))

/-- Settles O50: the loader's length check refuses the image. -/
theorem overlongImageLaunchesNoRun : Obligations.OverlongImageLaunchesNoRun :=
  fun _ stop hlen => launch_eq_none stop hlen

/-- Settles O51: memory is empty, `pc` the program's origin, the index register 0, the status Running. -/
theorem invariantHoldsAtReset : Obligations.InvariantHoldsAtReset where
  mem_wf := Memory.nil_wf
  pc_even := by decide
  pc_ge := by decide
  pc_lt := by decide
  index_le := by decide
  fault_possible := fun _ hc => nomatch hc

/-- The invariant does not depend on which canonical memory and which stop predicate are in place after reset. -/
theorem reset_inv_with {m : Memory} (hm : m.wf) (stop : StopCondition) :
    State.Inv { State.reset with mem := m, stop := stop } :=
  { invariantHoldsAtReset with mem_wf := hm }

/-- Settles O52: the loader leaves a canonical memory, and an image that does not fit gives no state. -/
theorem invariantHoldsAtLaunch : Obligations.InvariantHoldsAtLaunch := by
  intro image stop s hs
  by_cases hlen : image.length ≤ Config.maxImage
  · obtain ⟨m, hlaunch, hm, -⟩ := launch_eq_some stop hlen
    cases hlaunch.symm.trans hs
    exact reset_inv_with hm stop
  · rw [launch_eq_none stop (Nat.lt_of_not_le hlen)] at hs
    exact nomatch hs

/-! ### The end of a run -/

/-- From a running state that meets the invariant, `m` steps are enough to end the run if they would take `pc` to 4096:
each step that goes on moves `pc` by 2, and it stays below 4095. -/
theorem run_ends_within (m : Nat) {s : State} (hinv : s.Inv) (hrun : s.status = .running)
    (hm : 4096 ≤ s.pc.toNat + 2 * m) : ∃ k t, k ≤ m ∧ Steps k s t ∧ t.status ≠ .running := by
  induction m generalizing s with
  | zero =>
    have hlt : s.pc.toNat < 4095 := hinv.pc_lt
    omega
  | succ m ih =>
    obtain ⟨u, hu⟩ := step_of_running_answers_next hrun
    by_cases hurun : u.status = .running
    · have hlt : s.pc.toNat < 4095 := hinv.pc_lt
      have hpc : u.pc.toNat = s.pc.toNat + 2 := by
        rw [pc_of_step_running hu hurun, BitVec.toNat_add, BitVec.toNat_ofNat]
        omega
      obtain ⟨k, t, hk, hsteps, ht⟩ := ih (everyStepKeepsTheInvariant s u hinv hu) hurun (by omega)
      exact ⟨k + 1, t, Nat.succ_le_succ hk, .more hu hsteps, ht⟩
    · exact ⟨1, u, Nat.succ_le_succ (Nat.zero_le m), .one hu, hurun⟩

theorem inv_of_steps {k : Nat} {s t : State} (h : Steps k s t) (hinv : s.Inv) : t.Inv :=
  h.induct everyStepKeepsTheInvariant hinv

/-- A run that ends Stopped passed a state where the stop predicate held. -/
theorem stop_held_of_stopped {k : Nat} {s t : State} (h : Steps k s t) (hrun : s.status = .running)
    (ht : t.status = .stopped) : ∃ u, Reaches s u ∧ u.stop.holds u = true := by
  obtain ⟨j, u, hu, hlast⟩ := h.last hrun (by rw [ht]; exact nofun)
  exact ⟨u, ⟨j, hu⟩, (stepStopsExactlyWhenThePredicateHolds u t hlast).2.1 ht⟩

/-- Settles O54: `pc` starts at 512 at least, so 1792 steps would take it to 4096; and only the stop predicate ends a run
without a fault. -/
theorem everyRunEndsWithin1792Steps : Obligations.EveryRunEndsWithin1792Steps := by
  intro s hinv hrun
  have hge : 0x200 ≤ s.pc.toNat := hinv.pc_ge
  obtain ⟨k, t, hk, hsteps, ht⟩ := run_ends_within 1792 hinv hrun (by omega)
  have hlt : t.pc.toNat < 4095 := (inv_of_steps hsteps hinv).pc_lt
  refine ⟨k, t, hk, hsteps, ht, by omega, fun hnever => ?fault⟩
  case fault =>
    cases hstatus : t.status with
    | running => exact absurd hstatus ht
    | faulted c => exact ⟨c, rfl⟩
    | stopped =>
      obtain ⟨u, hu, hholds⟩ := stop_held_of_stopped hsteps hrun hstatus
      exact absurd ((hnever u hu).symm.trans hholds) nofun

/-- Settles O56: from one state there is one next state, and from a terminal state none. -/
theorem aRunHasOneEnd : Obligations.ARunHasOneEnd := by
  intro j k s t u hj hk ht hu
  induction hj generalizing k with
  | none s =>
    obtain ⟨rfl, rfl⟩ := steps_of_terminal hk ht
    exact ⟨rfl, rfl⟩
  | more first later ih =>
    cases hk with
    | none => exact absurd first (step_ne_next_of_terminal hu _)
    | more first' later' =>
      cases first.symm.trans first'
      obtain ⟨hjk, htu⟩ := ih _ later' ht
      exact ⟨congrArg (· + 1) hjk, htu⟩

/-- Settles O55: the run has an end, and only one; where that end is no fault it is Stopped, and the other way round. -/
theorem aRunHasAnOutputExactlyWhenItNeverFaults : Obligations.ARunHasAnOutputExactlyWhenItNeverFaults := by
  intro s hinv hrun
  constructor
  · rintro ⟨t, ⟨k, hk⟩, ht⟩ u ⟨j, hj⟩ c hc
    obtain ⟨-, rfl⟩ := aRunHasOneEnd k j s t u hk hj (terminal_of_stopped_or_faulted (.inl ht))
      (terminal_of_stopped_or_faulted (.inr ⟨c, hc⟩))
    exact nomatch ht.symm.trans hc
  · intro hsafe
    obtain ⟨k, t, -, hsteps, ht, -⟩ := everyRunEndsWithin1792Steps s hinv hrun
    cases hstatus : t.status with
    | running => exact absurd hstatus ht
    | faulted c => exact absurd hstatus (hsafe t ⟨k, hsteps⟩ c)
    | stopped => exact ⟨t, ⟨k, hsteps⟩, hstatus⟩

/-- Settles O57: the output is the buffer's rows one after another, and only a Stopped state has one. -/
theorem outputIsTheRowMajorGridOfAStoppedRun : Obligations.OutputIsTheRowMajorGridOfAStoppedRun := by
  intro s
  refine ⟨fun hstopped => ⟨s.pixels.rowMajor, ?output, s.pixels.rowMajor_length, fun x y hx hy =>
    s.pixels.rowMajor_getElem? ⟨hx, hy⟩⟩, fun hne => ?none⟩
  case output => simp only [State.output, hstopped]
  case none =>
    cases hstatus : s.status with
    | stopped => exact absurd hstatus hne
    | running => simp only [State.output, hstatus]
    | faulted c => simp only [State.output, hstatus]

end Sys2Proof
